-- ==== Sys2Proof/Word.lean ====
section
/-! DEFINITION. The widths of DESCORE's registers and bit sequences (spec/00_scope.md R4, R6). A bit sequence of
length `n` is held in a `BitVec n`: sequence position 1 is the most significant wire (R6). -/

namespace Sys2Proof

/-- One byte at the port, in `IBUF` or in `OBUF`. -/
abbrev Byte := BitVec 8

/-- A command word, `CMD_BITS = 11` (spec/30_encoding.md R71). -/
abbrev CmdWord := BitVec 11

/-- A 64-bit block, or the 64-bit master key as given (R4). -/
abbrev Block := BitVec 64

/-- The 56 bits PC1 keeps, `C ++ D` (R4, CD_BITS). -/
abbrev KeyHalves := BitVec 56

/-- One half of the key schedule, `C` or `D` (R4, HALFKEY_BITS). -/
abbrev HalfKey := BitVec 28

/-- A round subkey (R4, SUBKEY_BITS). -/
abbrev Subkey := BitVec 48

/-- One half of a block, `L` or `R` (R4, HALF_BITS). -/
abbrev Half := BitVec 32

/-- An 8-byte buffer: a key buffer or one block, as bytes (R4, BLOCK_BYTES, KEY_BYTES). -/
abbrev Bytes8 := Vector Byte 8

/-- The subkey store: entry `i` of the vector is `K[i+1]` (spec/20_memory.md R53: indexed 1 to 16). -/
abbrev SubkeyStore := Vector Subkey 16

end Sys2Proof
end

