-- ==== Sys2Proof/Config.lean ====
section
/-! DEFINITION. What is fixed for the machine and what the spec leaves open: the spec's own parameters
(spec/00_scope.md section 4, spec/92_eei_decisions.md section 5) and the free values of the registers that hold
no value (spec/10_state.md R24, R36; spec/93_implementation_defined.md U6, U7). -/

namespace Sys2Proof

/-- The data registers: the ones that can hold no specified value (spec/10_state.md section 2). -/
inductive DataReg where
  | ibuf (j : Fin 8)
  | obuf (j : Fin 8)
  | k (i : Fin 16)
  | c
  | d
  | l
  | r
  deriving DecidableEq, Repr

/-- FREE VALUE, assumption entries 1 and 2: what a data register of width `w` holds where the spec gives it no value.
`draw` tells one occasion from the next. It has no body: nothing can be proved of its value. -/
opaque Config.unspecified (w : Nat) (draw : Nat) (reg : DataReg) : BitVec w

/-- Free values for all of `IBUF`, drawn on one occasion. -/
def Config.unspecifiedIbuf (draw : Nat) : Bytes8 :=
  #v[unspecified 8 draw (.ibuf 0), unspecified 8 draw (.ibuf 1), unspecified 8 draw (.ibuf 2),
    unspecified 8 draw (.ibuf 3), unspecified 8 draw (.ibuf 4), unspecified 8 draw (.ibuf 5),
    unspecified 8 draw (.ibuf 6), unspecified 8 draw (.ibuf 7)]

/-- Free values for all of `OBUF`, drawn on one occasion. -/
def Config.unspecifiedObuf (draw : Nat) : Bytes8 :=
  #v[unspecified 8 draw (.obuf 0), unspecified 8 draw (.obuf 1), unspecified 8 draw (.obuf 2),
    unspecified 8 draw (.obuf 3), unspecified 8 draw (.obuf 4), unspecified 8 draw (.obuf 5),
    unspecified 8 draw (.obuf 6), unspecified 8 draw (.obuf 7)]

/-- Free values for all of `K[1..16]`, drawn on one occasion. -/
def Config.unspecifiedK (draw : Nat) : SubkeyStore :=
  #v[unspecified 48 draw (.k 0), unspecified 48 draw (.k 1), unspecified 48 draw (.k 2), unspecified 48 draw (.k 3),
    unspecified 48 draw (.k 4), unspecified 48 draw (.k 5), unspecified 48 draw (.k 6), unspecified 48 draw (.k 7),
    unspecified 48 draw (.k 8), unspecified 48 draw (.k 9), unspecified 48 draw (.k 10), unspecified 48 draw (.k 11),
    unspecified 48 draw (.k 12), unspecified 48 draw (.k 13), unspecified 48 draw (.k 14),
    unspecified 48 draw (.k 15)]

/-- `NPORTS`: one command port, one host (D2). -/
def Config.numPorts : Nat := 1

/-- `TRACE`: no observability port (D18, spec/10_state.md R35); no rule exists for another value. -/
def Config.trace : Bool := false

/-- `USTEPS_LOADKEY`: steps of a successful LOADKEY, accepting step included (D10, spec/70_reset_and_hazards.md R262). -/
def Config.ustepsLoadkey : Nat := 17

/-- `USTEPS_CRYPT`: steps of a successful ENC or DEC, accepting step included (D10, R262). -/
def Config.ustepsCrypt : Nat := 18

/-- The two open parameters of the HOST's padding (spec/45_host_padded_cipher.md). `padStripMax` is at most a block,
so that a stripped tail always lies inside the buffer; assumption entry 16. -/
structure HostConfig where
  /-- `PAD_FULL_BLOCK` (D20): whether a message of whole blocks gets a block of padding. -/
  padFullBlock : Bool
  /-- `PAD_STRIP_MAX` (D21): the largest padding value the strip removes. -/
  padStripMax : Fin 9
  deriving DecidableEq, Repr

/-- The values DESCORE's host takes: `PAD_FULL_BLOCK = true`, `PAD_STRIP_MAX = 7` (spec/00_scope.md section 4). -/
def HostConfig.default : HostConfig := { padFullBlock := true, padStripMax := 7 }

end Sys2Proof
end

