-- ==== Sys2Proof/Syntax.lean ====
section
/-! DEFINITION. The commands of DESCORE, one constructor per row of spec/opcode_table.json (spec/30_encoding.md R74),
and the lines of a command script (R78, R79). -/

namespace Sys2Proof

/-- The eight rows of the opcode table. The ignored bits 7:0 of format `C0` are no operand: the word with any of them
set is the same command (spec/30_encoding.md R71, U11; assumption entry 10). -/
inductive Instr where
  /-- NOP (R77). -/
  | nop
  /-- PUSH `imm8` (R95). -/
  | push (imm8 : Byte)
  /-- LOADKEY (R133). -/
  | loadkey
  /-- ENC (R174). -/
  | enc
  /-- DEC (R175). -/
  | dec
  /-- POP (R97). -/
  | pop
  /-- The reserved encoding `op = 110` (R75). -/
  | reserved110
  /-- The reserved encoding `op = 111` (R75). -/
  | reserved111
  deriving DecidableEq, Repr

/-- One line of a command script that stands for words: a command, a raw `.WORD`, or a pseudo-command with its
sixteen hexadecimal digits read as bytes (R78, R79). -/
inductive ScriptItem where
  /-- `NOP`, `PUSH 0xHH`, `LOADKEY`, `ENC`, `DEC`, `POP`. -/
  | command (i : Instr)
  /-- `.WORD 0xHHH`: that word as it stands. -/
  | word (w : Nat)
  /-- `KEY h16`. -/
  | key (bytes : List Byte)
  /-- `ENCB h16`. -/
  | encb (bytes : List Byte)
  /-- `DECB h16`. -/
  | decb (bytes : List Byte)
  /-- `POP8`. -/
  | pop8
  deriving DecidableEq, Repr

end Sys2Proof
end

