-- ==== Sys2Proof/WellFormed.lean ====
section
/-! DEFINITION. Which terms of the syntax stand for something the spec admits. -/

namespace Sys2Proof

/-- A number that is a command word: 11 bits, no more (spec/30_encoding.md R71, R76). -/
def wordInRange (w : Nat) : Bool := w < 2048

/-- Every term of `Instr` is well-formed: its one operand is a byte by type, used as it stands (R71). -/
def Instr.wellFormed : Instr → Bool
  | .nop => true
  | .push _ => true
  | .loadkey => true
  | .enc => true
  | .dec => true
  | .pop => true
  | .reserved110 => true
  | .reserved111 => true

/-- The commands that have a mnemonic of the script syntax; a reserved word is written only as `.WORD` (R78). -/
def Instr.hasMnemonic : Instr → Bool
  | .nop => true
  | .push _ => true
  | .loadkey => true
  | .enc => true
  | .dec => true
  | .pop => true
  | .reserved110 => false
  | .reserved111 => false

/-- A script line the syntax admits: a command with a mnemonic, a `.WORD` from 000 to 7FF, or a pseudo-command with
exactly eight bytes (R78, R79). -/
def ScriptItem.wellFormed : ScriptItem → Bool
  | .command i => i.hasMnemonic
  | .word w => wordInRange w
  | .key bytes => bytes.length == 8
  | .encb bytes => bytes.length == 8
  | .decb bytes => bytes.length == 8
  | .pop8 => true

/-- A permutation table of output width `m` over inputs of width `n`: `m` entries, each in `1..n`
(spec/41_permutation.md R111, R112). -/
def permTableOk (n m : Nat) (entries : List Nat) : Bool :=
  entries.length == m && entries.all fun e => 1 ≤ e && e ≤ n

/-- An S-box: 4 rows of 16 values 0 to 15, here one list, row 0 first (spec/43_feistel.md R153). -/
def sboxOk (entries : List Nat) : Bool :=
  entries.length == 64 && entries.all fun v => v < 16

end Sys2Proof
end

