-- ==== Sys2Proof/Decode.lean ====
section
/-! DEFINITION. The decoder and the encoder of command words (spec/30_encoding.md R71, R74 to R76, R78). -/

namespace Sys2Proof

/-- Why a number is no command. -/
inductive DecodeError where
  /-- It has a bit above bit 10: a command word is always 11 bits (R76). -/
  | notElevenBits
  deriving DecidableEq, Repr

/-- `op = cmd[10:8]` (R71). -/
def opField (w : CmdWord) : BitVec 3 := w.extractLsb' 8 3

/-- `imm8 = cmd[7:0]` (R71). -/
def imm8Field (w : CmdWord) : Byte := w.extractLsb' 0 8

/-- The decoder: total over the 2048 command words, by `op` alone (R74 to R76). -/
def decode (w : CmdWord) : Instr :=
  if opField w = 0b000#3 then .nop
  else if opField w = 0b001#3 then .push (imm8Field w)
  else if opField w = 0b010#3 then .loadkey
  else if opField w = 0b011#3 then .enc
  else if opField w = 0b100#3 then .dec
  else if opField w = 0b101#3 then .pop
  else if opField w = 0b110#3 then .reserved110
  else .reserved111

/-- The decoder on any number: rejects by name what is wider than a command word. -/
def decodeNat (w : Nat) : Except DecodeError Instr :=
  if wordInRange w then .ok (decode (BitVec.ofNat 11 w)) else .error .notElevenBits

/-- `op` of each command (R74). -/
def Instr.op : Instr → BitVec 3
  | .nop => 0b000#3
  | .push _ => 0b001#3
  | .loadkey => 0b010#3
  | .enc => 0b011#3
  | .dec => 0b100#3
  | .pop => 0b101#3
  | .reserved110 => 0b110#3
  | .reserved111 => 0b111#3

/-- Bits 7:0 of the word the assembler emits: the byte in format `CI`, zeros in format `C0` (R71, R78). -/
def Instr.low8 : Instr → Byte
  | .nop => 0#8
  | .push imm8 => imm8
  | .loadkey => 0#8
  | .enc => 0#8
  | .dec => 0#8
  | .pop => 0#8
  | .reserved110 => 0#8
  | .reserved111 => 0#8

/-- The encoder: the word of a command, ignored bits zero (R74, R78). -/
def encode (i : Instr) : CmdWord := i.op ++ i.low8

/-- The instruction the decoder reads from the host's table words: `w` cut to `nbits`, rejected where it is wider than
a command word. -/
def decodeTableWord (nbits w : Nat) : Option Instr :=
  match decodeNat (w % 2 ^ nbits) with
  | .ok i => some i
  | .error _ => none

end Sys2Proof
end

