-- ==== Sys2Proof/Machine/BitCodec.lean ====
section
/-! DEFINITION. Bit sequences and BitCodec (spec/00_scope.md R5 to R7, spec/20_memory.md R54, spec/40_bitcodec.md
R90, R91). -/

namespace Sys2Proof.Machine

/-- `s{i}`: element `i` of a bit sequence, counted from 1 at the first (R5); wire `n - i` of its register (R6). -/
def pos {n : Nat} (s : BitVec n) (i : Nat) : Bool := s.getMsbD (i - 1)

/-- The sequence as a list, position 1 first (R5). -/
def toSeq {n : Nat} (s : BitVec n) : List Bool := (List.range n).map fun i => pos s (i + 1)

/-- `num(s)`: the unsigned number of a sequence, first element most significant (R7). -/
def num (s : List Bool) : Nat := s.foldl (fun v b => 2 * v + b.toNat) 0

/-- The register of width `n` that holds a sequence of length `n`: its value is `num` (R6). -/
def ofSeq (n : Nat) (s : List Bool) : BitVec n := BitVec.ofNat n (num s)

/-- `s{lo..lo+len-1}`: the subsequence of length `len` that starts at position `lo` (R5). -/
def slice {n : Nat} (s : BitVec n) (lo len : Nat) : BitVec len := s.extractLsb' (n + 1 - lo - len) len

/-- `bytesToBits`: the eight bits of each byte in turn, most significant first (R54, R90). -/
def bytesToBits {m : Nat} (b : Vector Byte m) : BitVec (8 * m) := ofSeq (8 * m) (b.toList.flatMap toSeq)

/-- `bitsToBytes`: byte `j` is `num(s{8j+1..8j+8})` (R91). The length is a multiple of 8 by type (U2). -/
def bitsToBytes {m : Nat} (s : BitVec (8 * m)) : Vector Byte m := Vector.ofFn fun j => slice s (8 * j.val + 1) 8

/-- `bytesToBits` on the only length DESCORE uses (R93). -/
def blockOfBytes (b : Bytes8) : Block := bytesToBits b

/-- `bitsToBytes` on the only length DESCORE uses (R93). -/
def bytesOfBlock (x : Block) : Bytes8 := bitsToBytes (m := 8) x

end Sys2Proof.Machine
end

