-- ==== Sys2Proof/Machine/State.lean ====
section
/-! DEFINITION. The state of DESCORE (spec/10_state.md), its port (spec/30_encoding.md R70) and the state after reset. -/

namespace Sys2Proof.Machine

/-- `PHASE` (spec/10_state.md R27): what the sequencer is doing. The value 3 never occurs and cannot be written (U12). -/
inductive Phase where
  /-- 0: no operation is running. -/
  | idle
  /-- 1: a key schedule is running. -/
  | ks
  /-- 2: a block operation is running. -/
  | rnd
  deriving DecidableEq, Repr

/-- `MODE` (spec/10_state.md R29): direction of the running block operation. -/
inductive Mode where
  /-- 0. -/
  | encrypt
  /-- 1. -/
  | decrypt
  deriving DecidableEq, Repr

/-- The six faults of a command (spec/60_exceptions.md R220). They are responses of the machine, not stops of it. -/
inductive CmdFault where
  /-- Code 1, raised by LOADKEY (R222). -/
  | invalidKeyError
  /-- Code 2, raised by DEC (R223). -/
  | invalidInputError
  /-- Code 3, raised by ENC (R224). -/
  | blockLengthFault
  /-- Code 4, raised by ENC and DEC (R226). -/
  | noKeyFault
  /-- Code 5, raised by the reserved words (R225). -/
  | illegalCommand
  /-- Code 6, raised by POP (R227). -/
  | outputEmptyFault
  deriving DecidableEq, Repr

/-- A response code, also the value of `ERR` (spec/10_state.md R30): success or a fault. Code 7 cannot be written (U12). -/
inductive RspCode where
  /-- Code 0. -/
  | ok
  /-- Codes 1 to 6. -/
  | fault (f : CmdFault)
  deriving DecidableEq, Repr

/-- A response `(err, data)` (spec/30_encoding.md R73). -/
structure Response where
  err : RspCode
  data : Byte
  deriving DecidableEq, Repr

/-- What the host presents to the port at one step (assumption entry 4). -/
inductive HostEvent where
  /-- `cmd_valid = 1` with this word on `cmd`, held until it is accepted (R70, R72). -/
  | command (w : CmdWord)
  /-- `cmd_valid = 0` for one step. -/
  | quiet
  /-- `rst = 1` for one step (spec/70_reset_and_hazards.md R250). -/
  | reset
  deriving DecidableEq, Repr

/-- The machine. Registers under the spec's names (spec/10_state.md R20 to R30); then the port; then the model's own
two fields. -/
structure State where
  /-- `IBUF[0..7]`. -/
  ibuf : Bytes8
  /-- `OBUF[0..7]`. -/
  obuf : Bytes8
  /-- `K[1..16]`: entry `i` is `K[i+1]`. -/
  k : SubkeyStore
  /-- `C`. -/
  c : HalfKey
  /-- `D`. -/
  d : HalfKey
  /-- `L`. -/
  l : Half
  /-- `R`. -/
  r : Half
  /-- `ICNT`, 0..9. -/
  icnt : Fin 10
  /-- `OCNT`, 0..8. -/
  ocnt : Fin 9
  /-- `KEYVALID`. -/
  keyValid : Bool
  /-- `MODE`. -/
  mode : Mode
  /-- `PHASE`. -/
  phase : Phase
  /-- `RNDCTR`, 0..16. -/
  rndctr : Fin 17
  /-- `ERR`. -/
  err : RspCode
  /-- `rsp_valid`, `rsp_err`, `rsp_data`: the response this step drives, if any. -/
  rsp : Option Response
  /-- What the host goes on to present, next first. -/
  inputs : List HostEvent
  /-- MODEL's own: every response so far, oldest first. -/
  rspLog : List Response
  /-- MODEL's own: how many occasions have drawn free values. -/
  draws : Nat
  deriving DecidableEq, Repr

/-- Why the machine stops. -/
inductive Fault where
  /-- Raised by `step` alone, in a register combination that the spec says never occurs (spec/10_state.md R32; `stuck`
  in spec/93_implementation_defined.md U12): `PHASE = KS` with `KEYVALID = 1` or `RNDCTR = 16`, `PHASE = RND` with
  `KEYVALID = 0`. Safe: no state reached from reset has it. -/
  | unreachableSequencer
  deriving DecidableEq, Repr

/-- Why an instruction has no meaning. -/
inductive Refusal where
  /-- Raised by a rejected arm of `exec`; no arm is rejected. Safe. -/
  | notModelled (mnemonic : String)
  deriving DecidableEq, Repr

/-- The machine right after reset (spec/10_state.md R36): control registers 0, data registers the free values of
occasion 0 (assumption entry 1), nothing at the port. -/
def State.reset : State where
  ibuf := Config.unspecifiedIbuf 0
  obuf := Config.unspecifiedObuf 0
  k := Config.unspecifiedK 0
  c := Config.unspecified 28 0 .c
  d := Config.unspecified 28 0 .d
  l := Config.unspecified 32 0 .l
  r := Config.unspecified 32 0 .r
  icnt := 0
  ocnt := 0
  keyValid := false
  mode := .encrypt
  phase := .idle
  rndctr := 0
  err := .ok
  rsp := none
  inputs := []
  rspLog := []
  draws := 1

end Sys2Proof.Machine
end

