-- ==== Sys2Proof/Machine/Flags.lean ====
section
/-! DEFINITION. DESCORE has no arithmetic flags (spec/10_state.md R31). What stands in their place: the response codes,
the conditions the rules test, and the views the host reads: `STATUS` and `cmd_ready`. -/

namespace Sys2Proof.Machine

/-- The 3-bit code of each fault (spec/60_exceptions.md R220). -/
def CmdFault.code : CmdFault → BitVec 3
  | .invalidKeyError => 1#3
  | .invalidInputError => 2#3
  | .blockLengthFault => 3#3
  | .noKeyFault => 4#3
  | .illegalCommand => 5#3
  | .outputEmptyFault => 6#3

/-- The 3-bit response code, `ERR` and `rsp_err` (spec/10_state.md R30, spec/30_encoding.md R70). -/
def RspCode.code : RspCode → BitVec 3
  | .ok => 0#3
  | .fault f => f.code

/-- `PHASE` as 2 bits (spec/10_state.md section 3). -/
def Phase.code : Phase → BitVec 2
  | .idle => 0#2
  | .ks => 1#2
  | .rnd => 2#2

/-- `MODE` as 1 bit (spec/10_state.md section 3). -/
def Mode.code : Mode → BitVec 1
  | .encrypt => 0#1
  | .decrypt => 1#1

/-- `ICNT = 8`: the input buffer holds exactly one key or block (spec/20_memory.md R57). -/
def inputComplete (s : State) : Bool := s.icnt == 8

/-- `STATUS.BUSY`: `PHASE != IDLE` (spec/10_state.md R33). -/
def busy (s : State) : Bool := s.phase != .idle

/-- `STATUS` (spec/10_state.md R33): BUSY, KEYVALID, ERR, three zeros, ICNT, OCNT. A view: reading it changes nothing. -/
def status (s : State) : BitVec 16 :=
  BitVec.ofBool (busy s) ++ BitVec.ofBool s.keyValid ++ s.err.code ++ 0#3 ++ BitVec.ofNat 4 s.icnt.val ++
    BitVec.ofNat 4 s.ocnt.val

/-- `rst` at the next step: what the host presents next is a reset (spec/30_encoding.md R70). -/
def rstPin (s : State) : Bool := s.inputs.head? == some .reset

/-- `cmd_ready`: `PHASE = IDLE` and `rst = 0` (spec/30_encoding.md R70). -/
def cmdReady (s : State) : Bool := s.phase == .idle && !rstPin s

/-- `rsp_valid`: the last step drove a response (spec/30_encoding.md R70). -/
def rspValid (s : State) : Bool := s.rsp.isSome

end Sys2Proof.Machine
end

