-- ==== Sys2Proof/Machine/Ops.lean ====
section
/-! DEFINITION. The named operations over the registers and the port, taking a fault among them. There is no addressable
memory (spec/20_memory.md R50). There is no return from a fault, because nothing is saved (spec/60_exceptions.md R230). -/

namespace Sys2Proof.Machine

/-- `respond(err, data)`: the response of a command, driven at the port and recorded (spec/30_encoding.md R73). -/
def respond (code : RspCode) (data : Byte) (s : State) : State :=
  { s with rsp := some ⟨code, data⟩, rspLog := s.rspLog ++ [⟨code, data⟩] }

/-- How a command other than NOP completes: `ERR <- 0; respond(0, data)` (spec/10_state.md R30). -/
def succeed (data : Byte) (s : State) : State := respond .ok data { s with err := .ok }

/-- `KEYVALID <- 0`: from then on `K[1..16]` hold no value (spec/10_state.md R24, R28; U7; assumption entry 2). -/
def dropKey (s : State) : State :=
  { s with
    keyValid := false
    k := Config.unspecifiedK s.draws
    draws := s.draws + 1 }

/-- The state changes of each fault's own rule (spec/60_exceptions.md R221 (b), R222 to R227). -/
def faultChanges : CmdFault → State → State
  | .invalidKeyError, s => dropKey { s with icnt := 0 }
  | .invalidInputError, s => { s with icnt := 0 }
  | .blockLengthFault, s => { s with icnt := 0 }
  | .noKeyFault, s => { s with icnt := 0 }
  | .illegalCommand, s => s
  | .outputEmptyFault, s => s

/-- `raise <Fault>`: taking a fault, in full (spec/60_exceptions.md R221): the changes of its rule, `ERR <- code`, the
response `(code, 0x00)` in the accepting step; `PHASE` stays as it is, nothing is saved, no control goes anywhere. -/
def takeFault (f : CmdFault) (s : State) : State :=
  respond (.fault f) 0#8 { faultChanges f s with err := .fault f }

/-- PUSH on the buffer: append while it has room, otherwise remember the overflow (spec/40_bitcodec.md R95;
spec/10_state.md R26). -/
def pushByte (b : Byte) (s : State) : State :=
  if h : s.icnt.val ≤ 7 then
    { s with ibuf := s.ibuf.set s.icnt.val b, icnt := ⟨s.icnt.val + 1, by omega⟩ }
  else
    { s with icnt := 9 }

/-- One unread byte fewer (spec/10_state.md R23). -/
def consumeOutput (s : State) : State := { s with ocnt := ⟨s.ocnt.val - 1, by omega⟩ }

/-- A reset edge (spec/70_reset_and_hazards.md R250, R251): control registers 0, data registers unspecified, a running
operation abandoned, no response. The host's remaining inputs and the record of responses are no state of the core. -/
def resetEdge (s : State) : State :=
  { ibuf := Config.unspecifiedIbuf s.draws
    obuf := Config.unspecifiedObuf s.draws
    k := Config.unspecifiedK s.draws
    c := Config.unspecified 28 s.draws .c
    d := Config.unspecified 28 s.draws .d
    l := Config.unspecified 32 s.draws .l
    r := Config.unspecified 32 s.draws .r
    icnt := 0
    ocnt := 0
    keyValid := false
    mode := .encrypt
    phase := .idle
    rndctr := 0
    err := .ok
    rsp := none
    inputs := s.inputs
    rspLog := s.rspLog
    draws := s.draws + 1 }

end Sys2Proof.Machine
end

