-- ==== Sys2Proof/Machine/Operands.lean ====
section
/-! DEFINITION. The operands. The one explicit operand is `imm8` of PUSH, a field of the instruction; the others are
implicit: the input buffer of LOADKEY, ENC and DEC, and the output buffer of POP (spec/40_bitcodec.md R93, R97). -/

namespace Sys2Proof.Machine

/-- `X = bytesToBits([IBUF[0], ..., IBUF[7]])` (R93; spec/20_memory.md R55). -/
def inputBlock (s : State) : Block := blockOfBytes s.ibuf

/-- `OBUF[8 - OCNT]`, the next byte to pop; there is one only while `OCNT > 0` (R97). -/
def nextOutput (s : State) (h : s.ocnt.val ≠ 0) : Byte := s.obuf[8 - s.ocnt.val]'(by omega)

/-- The output stage of ENC and DEC: all of `OBUF`, `OCNT <- 8` (R93; spec/44_blockcipher.md R177). -/
def storeOutput (Y : Block) (s : State) : State := { s with obuf := bytesOfBlock Y, ocnt := 8 }

end Sys2Proof.Machine
end

