-- ==== Sys2Proof/Machine/BufferCmds.lean ====
section
/-! DEFINITION. PUSH and POP (spec/40_bitcodec.md R95, R97). -/

namespace Sys2Proof.Machine

/-- PUSH `imm8` (R95). -/
def execPush (imm8 : Byte) (s : State) : Host.Outcome State Fault Refusal := .next (succeed 0#8 (pushByte imm8 s))

/-- POP (R97): OutputEmptyFault when nothing is unread, otherwise the next byte. -/
def execPop (s : State) : Host.Outcome State Fault Refusal :=
  if h : s.ocnt.val = 0 then .next (takeFault .outputEmptyFault s)
  else .next (succeed (nextOutput s h) (consumeOutput s))

end Sys2Proof.Machine
end

