-- ==== Sys2Proof/Machine/Feistel.lean ====
section
/-! DEFINITION. FeistelRound: the S-boxes, the f-function and the round transform (spec/43_feistel.md). The S-box
entries are the spec's own, marked there as general knowledge (assumption entry 12). -/

namespace Sys2Proof.Machine

/-- An S-box: 4 rows of 16 values, row 0 first (R153). -/
structure SBox where
  entries : List Nat
  ok : sboxOk entries = true

/-- S1 (R154). -/
def s1 : SBox where
  entries :=
    [14, 4, 13, 1, 2, 15, 11, 8, 3, 10, 6, 12, 5, 9, 0, 7] ++
    [0, 15, 7, 4, 14, 2, 13, 1, 10, 6, 12, 11, 9, 5, 3, 8] ++
    [4, 1, 14, 8, 13, 6, 2, 11, 15, 12, 9, 7, 3, 10, 5, 0] ++
    [15, 12, 8, 2, 4, 9, 1, 7, 5, 11, 3, 14, 10, 0, 6, 13]
  ok := by decide

/-- S2 (R155). -/
def s2 : SBox where
  entries :=
    [15, 1, 8, 14, 6, 11, 3, 4, 9, 7, 2, 13, 12, 0, 5, 10] ++
    [3, 13, 4, 7, 15, 2, 8, 14, 12, 0, 1, 10, 6, 9, 11, 5] ++
    [0, 14, 7, 11, 10, 4, 13, 1, 5, 8, 12, 6, 9, 3, 2, 15] ++
    [13, 8, 10, 1, 3, 15, 4, 2, 11, 6, 7, 12, 0, 5, 14, 9]
  ok := by decide

/-- S3 (R156). -/
def s3 : SBox where
  entries :=
    [10, 0, 9, 14, 6, 3, 15, 5, 1, 13, 12, 7, 11, 4, 2, 8] ++
    [13, 7, 0, 9, 3, 4, 6, 10, 2, 8, 5, 14, 12, 11, 15, 1] ++
    [13, 6, 4, 9, 8, 15, 3, 0, 11, 1, 2, 12, 5, 10, 14, 7] ++
    [1, 10, 13, 0, 6, 9, 8, 7, 4, 15, 14, 3, 11, 5, 2, 12]
  ok := by decide

/-- S4 (R157). -/
def s4 : SBox where
  entries :=
    [7, 13, 14, 3, 0, 6, 9, 10, 1, 2, 8, 5, 11, 12, 4, 15] ++
    [13, 8, 11, 5, 6, 15, 0, 3, 4, 7, 2, 12, 1, 10, 14, 9] ++
    [10, 6, 9, 0, 12, 11, 7, 13, 15, 1, 3, 14, 5, 2, 8, 4] ++
    [3, 15, 0, 6, 10, 1, 13, 8, 9, 4, 5, 11, 12, 7, 2, 14]
  ok := by decide

/-- S5 (R158). -/
def s5 : SBox where
  entries :=
    [2, 12, 4, 1, 7, 10, 11, 6, 8, 5, 3, 15, 13, 0, 14, 9] ++
    [14, 11, 2, 12, 4, 7, 13, 1, 5, 0, 15, 10, 3, 9, 8, 6] ++
    [4, 2, 1, 11, 10, 13, 7, 8, 15, 9, 12, 5, 6, 3, 0, 14] ++
    [11, 8, 12, 7, 1, 14, 2, 13, 6, 15, 0, 9, 10, 4, 5, 3]
  ok := by decide

/-- S6 (R159). -/
def s6 : SBox where
  entries :=
    [12, 1, 10, 15, 9, 2, 6, 8, 0, 13, 3, 4, 14, 7, 5, 11] ++
    [10, 15, 4, 2, 7, 12, 9, 5, 6, 1, 13, 14, 0, 11, 3, 8] ++
    [9, 14, 15, 5, 2, 8, 12, 3, 7, 0, 4, 10, 1, 13, 11, 6] ++
    [4, 3, 2, 12, 9, 5, 15, 10, 11, 14, 1, 7, 6, 0, 8, 13]
  ok := by decide

/-- S7 (R160). -/
def s7 : SBox where
  entries :=
    [4, 11, 2, 14, 15, 0, 8, 13, 3, 12, 9, 7, 5, 10, 6, 1] ++
    [13, 0, 11, 7, 4, 9, 1, 10, 14, 3, 5, 12, 2, 15, 8, 6] ++
    [1, 4, 11, 13, 12, 3, 7, 14, 10, 15, 6, 8, 0, 5, 9, 2] ++
    [6, 11, 13, 8, 1, 4, 10, 7, 9, 5, 0, 15, 14, 2, 3, 12]
  ok := by decide

/-- S8 (R161). -/
def s8 : SBox where
  entries :=
    [13, 2, 8, 4, 6, 15, 11, 1, 10, 9, 3, 14, 5, 0, 12, 7] ++
    [1, 15, 13, 8, 10, 3, 7, 4, 12, 5, 6, 11, 0, 14, 9, 2] ++
    [7, 11, 4, 1, 9, 12, 14, 2, 0, 6, 10, 13, 15, 3, 5, 8] ++
    [2, 1, 14, 7, 4, 10, 8, 13, 15, 12, 9, 0, 3, 5, 6, 11]
  ok := by decide

/-- The eight S-boxes by number; index `i` is S-box `i + 1` (R151: group i uses S-box i). -/
def sbox : Fin 8 → SBox
  | 0 => s1
  | 1 => s2
  | 2 => s3
  | 3 => s4
  | 4 => s5
  | 5 => s6
  | 6 => s7
  | 7 => s8

/-- `row = 2*g{1} + g{6}` (R152). -/
def sboxRow (g : BitVec 6) : Fin 4 :=
  ⟨2 * (pos g 1).toNat + (pos g 6).toNat, by
    have h1 := Bool.toNat_lt (pos g 1)
    have h6 := Bool.toNat_lt (pos g 6)
    omega⟩

/-- `col = 8*g{2} + 4*g{3} + 2*g{4} + g{5}` (R152). -/
def sboxCol (g : BitVec 6) : Fin 16 :=
  ⟨8 * (pos g 2).toNat + 4 * (pos g 3).toNat + 2 * (pos g 4).toNat + (pos g 5).toNat, by
    have h2 := Bool.toNat_lt (pos g 2)
    have h3 := Bool.toNat_lt (pos g 3)
    have h4 := Bool.toNat_lt (pos g 4)
    have h5 := Bool.toNat_lt (pos g 5)
    omega⟩

theorem SBox.length_entries (S : SBox) : S.entries.length = 64 := by
  have h := S.ok
  simp only [sboxOk, Bool.and_eq_true, beq_iff_eq] at h
  exact h.1

/-- `SBOX(i, row, col)` (spec/20_memory.md R52): rows 0 to 3, columns 0 to 15. -/
def sboxEntry (S : SBox) (row : Fin 4) (col : Fin 16) : Nat :=
  S.entries[16 * row.val + col.val]'(by have h := S.length_entries; omega)

/-- `sboxOut(i, g)`: the entry, emitted as 4 bits, most significant first (R152). -/
def sboxOut (i : Fin 8) (g : BitVec 6) : BitVec 4 := BitVec.ofNat 4 (sboxEntry (sbox i) (sboxRow g) (sboxCol g))

/-- Group `i + 1` of the 48-bit value: positions `6i+1 .. 6i+6` (R150). -/
def group (x : Subkey) (i : Fin 8) : BitVec 6 := slice x (6 * i.val + 1) 6

/-- The eight S-box outputs side by side, `o_1` first (R150). -/
def sboxLayer (x : Subkey) : Half :=
  sboxOut 0 (group x 0) ++ sboxOut 1 (group x 1) ++ sboxOut 2 (group x 2) ++ sboxOut 3 (group x 3) ++
    sboxOut 4 (group x 4) ++ sboxOut 5 (group x 5) ++ sboxOut 6 (group x 6) ++ sboxOut 7 (group x 7)

/-- The f-function: E, XOR with the subkey, the S-boxes, P (R150). -/
def feistel (R : Half) (k : Subkey) : Half := permute (sboxLayer (permute R eTable ^^^ k)) pTable

/-- `round(L, R, k)`: `newL = R`, `newR = L xor f(R, k)` (R162). -/
def round (LR : Half × Half) (k : Subkey) : Half × Half := (LR.2, LR.1 ^^^ feistel LR.2 k)

end Sys2Proof.Machine
end

