-- ==== Sys2Proof/Machine/BlockCipher.lean ====
section
/-! DEFINITION. BlockCipher as a function (spec/44_blockcipher.md R170, R171). -/

namespace Sys2Proof.Machine

/-- The entry of the subkey store that round `i + 1` reads: `K[n]` to encrypt, `K[17 - n]` to decrypt (R171, R176). -/
def roundKeyIndex : Mode → Fin 16 → Fin 16
  | .encrypt, i => i
  | .decrypt, i => i.rev

/-- `k_n` (R171). -/
def roundKey (K : SubkeyStore) (m : Mode) (i : Fin 16) : Subkey := K[(roundKeyIndex m i).val]

/-- `(L_0, R_0)`: the halves of the IP output, first half first (R171). -/
def startHalves (X : Block) : Half × Half := (slice (permute X ipTable) 1 32, slice (permute X ipTable) 33 32)

/-- The sixteen rounds in order; index `i` is round `i + 1`. -/
def roundOrder : List (Fin 16) := [0, 1, 2, 3, 4, 5, 6, 7, 8, 9, 10, 11, 12, 13, 14, 15]

/-- `(L_n, R_n)` from `(L_0, R_0)` (R171). -/
def halvesAfter (K : SubkeyStore) (m : Mode) (LR : Half × Half) (n : Nat) : Half × Half :=
  (roundOrder.take n).foldl (fun lr i => round lr (roundKey K m i)) LR

/-- The final swap and IP⁻¹: `permute(R ++ L, IPINV)` (R171, R177). -/
def finalBlock (LR : Half × Half) : Block := permute (LR.2 ++ LR.1 : Block) ipInvTable

/-- `cryptBlock(X, subkey, mode)` (R171). -/
def cryptBlock (X : Block) (K : SubkeyStore) (m : Mode) : Block := finalBlock (halvesAfter K m (startHalves X) 16)

/-- `encryptBlock(X)` (R170, R171). -/
def encryptBlock (K : SubkeyStore) (X : Block) : Block := cryptBlock X K .encrypt

/-- `decryptBlock(X)` (R171). -/
def decryptBlock (K : SubkeyStore) (X : Block) : Block := cryptBlock X K .decrypt

end Sys2Proof.Machine
end

