-- ==== Sys2Proof/Machine/CipherCmds.lean ====
section
/-! DEFINITION. ENC and DEC and their micro-steps (spec/44_blockcipher.md R174 to R177). -/

namespace Sys2Proof.Machine

/-- The accepting step of an ENC or DEC that passes its checks (R174, R175). -/
def startCipher (m : Mode) (s : State) : State :=
  { s with
    l := (startHalves (inputBlock s)).1
    r := (startHalves (inputBlock s)).2
    mode := m
    icnt := 0
    rndctr := 0
    phase := .rnd }

/-- ENC, accepting step (R174): no key is tested before the length (spec/60_exceptions.md R228). -/
def execEnc (s : State) : Host.Outcome State Fault Refusal :=
  if !s.keyValid then .next (takeFault .noKeyFault s)
  else if inputComplete s then .next (startCipher .encrypt s)
  else .next (takeFault .blockLengthFault s)

/-- DEC, accepting step (R175). -/
def execDec (s : State) : Host.Outcome State Fault Refusal :=
  if !s.keyValid then .next (takeFault .noKeyFault s)
  else if inputComplete s then .next (startCipher .decrypt s)
  else .next (takeFault .invalidInputError s)

/-- The round micro-step (R176). Round `i + 1` stands at index `i`; both halves are computed from the values before. -/
def roundMicroStep (i : Fin 16) (s : State) : State :=
  { s with
    l := (round (s.l, s.r) (roundKey s.k s.mode i)).1
    r := (round (s.l, s.r) (roundKey s.k s.mode i)).2
    rndctr := i.succ }

/-- The final micro-step (R177): swap, IP⁻¹, the output buffer, the response. -/
def finalMicroStep (s : State) : State :=
  succeed 0#8 { storeOutput (finalBlock (s.l, s.r)) s with phase := .idle }

end Sys2Proof.Machine
end

