-- ==== Sys2Proof/Machine/KeySchedule.lean ====
section
/-! DEFINITION. KeySchedule as a function (spec/42_keyschedule.md R130 to R132). -/

namespace Sys2Proof.Machine

/-- `SHIFT{i}`: "1 bit for rounds 1,2,9,16; 2 bits otherwise" (R132). Only `1 <= i <= 16` is ever asked for. -/
def shiftAmount (i : Nat) : Nat := if i = 1 ∨ i = 2 ∨ i = 9 ∨ i = 16 then 1 else 2

/-- `rotl(s, k)`: left-circular shift (spec/00_scope.md section 5.2). -/
def rotl {n : Nat} (s : BitVec n) (k : Nat) : BitVec n := s.rotateLeft k

/-- `C_0`: the first 28 bits of the PC1 output (R131). -/
def keyC0 (X : Block) : HalfKey := slice (permute X pc1Table) 1 28

/-- `D_0`: the last 28 bits of the PC1 output (R131). -/
def keyD0 (X : Block) : HalfKey := slice (permute X pc1Table) 29 28

/-- A half after `i` rounds of shifting; the shifts accumulate (R131). -/
def halfAfter (h : HalfKey) : Nat → HalfKey
  | 0 => h
  | i + 1 => rotl (halfAfter h i) (shiftAmount (i + 1))

/-- PC2 of the two halves side by side (R131). -/
def subkeyOf (c d : HalfKey) : Subkey := permute (c ++ d : KeyHalves) pc2Table

/-- `subkey_i` of the master key `X` (R131). -/
def subkeyAt (X : Block) (i : Nat) : Subkey := subkeyOf (halfAfter (keyC0 X) i) (halfAfter (keyD0 X) i)

/-- `keySchedule(X)`: the sixteen subkeys, `subkey_1` first (R131, R140). -/
def keySchedule (X : Block) : SubkeyStore := Vector.ofFn fun i => subkeyAt X (i.val + 1)

end Sys2Proof.Machine
end

