-- ==== Sys2Proof/Machine/KeyCmds.lean ====
section
/-! DEFINITION. LOADKEY and its micro-step (spec/42_keyschedule.md R133, R134). -/

namespace Sys2Proof.Machine

/-- The accepting step of a LOADKEY that has its eight bytes (R133): the old instance is gone, the halves are loaded,
the key schedule starts. -/
def startKeySchedule (s : State) : State :=
  dropKey { s with
    c := keyC0 (inputBlock s)
    d := keyD0 (inputBlock s)
    icnt := 0
    rndctr := 0
    phase := .ks }

/-- LOADKEY, accepting step (R133). -/
def execLoadkey (s : State) : Host.Outcome State Fault Refusal :=
  if inputComplete s then .next (startKeySchedule s) else .next (takeFault .invalidKeyError s)

/-- What every key-schedule micro-step does: shift, PC2, `RNDCTR <- i` (R134). Round `i + 1` stands at index `i`. -/
def keyRound (i : Fin 16) (s : State) : State :=
  { s with
    c := rotl s.c (shiftAmount (i.val + 1))
    d := rotl s.d (shiftAmount (i.val + 1))
    k := s.k.set i.val (subkeyOf (rotl s.c (shiftAmount (i.val + 1))) (rotl s.d (shiftAmount (i.val + 1))))
    rndctr := i.succ }

/-- The key-schedule micro-step (R134): the sixteenth makes the key valid, ends the operation and responds. -/
def keyMicroStep (i : Fin 16) (s : State) : State :=
  if i.val = 15 then succeed 0#8 { keyRound i s with keyValid := true, phase := .idle } else keyRound i s

end Sys2Proof.Machine
end

