-- ==== Sys2Proof/Machine/PortCmds.lean ====
section
/-! DEFINITION. NOP and the reserved encodings (spec/30_encoding.md R75, R77). -/

namespace Sys2Proof.Machine

/-- NOP (R77): responds and changes nothing, `ERR` not either. -/
def execNop (s : State) : Host.Outcome State Fault Refusal := .next (respond .ok 0#8 s)

/-- `op = 110` (R75): the IllegalCommand fault. -/
def execReserved110 (s : State) : Host.Outcome State Fault Refusal := .next (takeFault .illegalCommand s)

/-- `op = 111` (R75): the IllegalCommand fault. -/
def execReserved111 (s : State) : Host.Outcome State Fault Refusal := .next (takeFault .illegalCommand s)

end Sys2Proof.Machine
end

