-- ==== Sys2Proof/Machine/Dispatch.lean ====
section
/-! DEFINITION. The meaning of each command in the step that accepts it (spec/30_encoding.md R74). -/

namespace Sys2Proof.Machine

/-- One arm per row of the opcode table. -/
def exec (i : Instr) (s : State) : Host.Outcome State Fault Refusal :=
  match i with
  | .nop => Sys2Proof.Machine.execNop s
  | .push imm8 => Sys2Proof.Machine.execPush imm8 s
  | .loadkey => Sys2Proof.Machine.execLoadkey s
  | .enc => Sys2Proof.Machine.execEnc s
  | .dec => Sys2Proof.Machine.execDec s
  | .pop => Sys2Proof.Machine.execPop s
  | .reserved110 => Sys2Proof.Machine.execReserved110 s
  | .reserved111 => Sys2Proof.Machine.execReserved111 s

end Sys2Proof.Machine
end

