-- ==== Sys2Proof/Machine/Port.lean ====
section
/-! DEFINITION. What the next step does: the command port and the sequencer (spec/30_encoding.md R70, R72;
spec/44_blockcipher.md R180; assumption entries 4, 5, 6, 8). -/

namespace Sys2Proof.Machine

/-- The kinds of step. Round `i + 1` stands at index `i`. -/
inductive Action where
  /-- `rst = 1`. -/
  | reset
  /-- The port accepts this word. -/
  | accept (w : CmdWord)
  /-- The core is idle and no command is presented. -/
  | wait
  /-- Key-schedule micro-step. -/
  | keyRound (i : Fin 16)
  /-- Round micro-step. -/
  | cipherRound (i : Fin 16)
  /-- Final micro-step. -/
  | final
  /-- A register combination that never occurs. -/
  | stuck
  deriving DecidableEq, Repr

/-- What the sequencer does where `rst = 0` (spec/44_blockcipher.md R180; the combinations of U12 have no step). -/
def sequencerAction (s : State) : Action :=
  match s.phase with
  | .idle =>
    match s.inputs with
    | .command w :: _ => .accept w
    | _ => .wait
  | .ks => if h : s.rndctr.val < 16 then (if s.keyValid then .stuck else .keyRound ⟨s.rndctr.val, h⟩) else .stuck
  | .rnd =>
    if s.keyValid then (if h : s.rndctr.val < 16 then .cipherRound ⟨s.rndctr.val, h⟩ else .final) else .stuck

/-- Reset comes before everything (spec/70_reset_and_hazards.md R250). -/
def nextAction (s : State) : Action := if rstPin s then .reset else sequencerAction s

/-- What the host goes on to present after this step: a command that is not accepted is presented again (R72). -/
def remainingInputs (s : State) : List HostEvent :=
  match s.inputs with
  | [] => []
  | .command w :: rest => if s.phase = .idle then rest else .command w :: rest
  | .quiet :: rest => rest
  | .reset :: rest => rest

/-- The start of a step: the host's signals are taken, and `rsp_valid` of the step before is over ("pulses for one
edge", R70). -/
def beginStep (s : State) : State := { s with inputs := remainingInputs s, rsp := none }

/-- The host presents `w` next, to a core that is ready to accept it (assumption entry 11). -/
def presentWord (w : CmdWord) (s : State) : State := { s with inputs := .command w :: s.inputs, phase := .idle }

end Sys2Proof.Machine
end

