-- ==== Sys2Proof/Machine/Step.lean ====
section
/-! DEFINITION. One step: a reset, the acceptance of a command, a micro-step, or waiting for the host
(spec/92_eei_decisions.md D24). -/

namespace Sys2Proof.Machine

/-- The machine's step. -/
def step (s : State) : Host.Outcome State Fault Refusal :=
  match nextAction s with
  | .reset => .next (resetEdge (beginStep s))
  | .accept w => exec (decode w) (beginStep s)
  | .wait => .next (beginStep s)
  | .keyRound i => .next (keyMicroStep i (beginStep s))
  | .cipherRound i => .next (roundMicroStep i (beginStep s))
  | .final => .next (finalMicroStep (beginStep s))
  | .stuck => .fault .unreachableSequencer

/-- `s` with a word of the opcode table presented at the port, as the very next command (assumption entries 4, 11). -/
def State.withFetchWord (s : State) (nbits w : Nat) : State := presentWord (BitVec.ofNat 11 (w % 2 ^ nbits)) s

end Sys2Proof.Machine
end

