-- ==== Sys2Proof/Machine/Assembler.lean ====
section
/-! DEFINITION. Command scripts: the text of a line, and the words it stands for (spec/30_encoding.md R78, R79;
assumption entry 18). Host software, no part of the machine. -/

namespace Sys2Proof.Machine

/-- Why a script line is no line of the syntax. -/
inductive AsmError where
  /-- The line is no command, pseudo-command or `.WORD` of R78 and R79. -/
  | unknownLine
  /-- A number or a digit string has another shape or range than R78 and R79 give it. -/
  | badOperand
  deriving DecidableEq, Repr

/-- The words of a well-formed script line (R78, R79). -/
def wordsOf : ScriptItem → List CmdWord
  | .command i => [encode i]
  | .word w => [BitVec.ofNat 11 w]
  | .key bytes => bytes.map (fun b => encode (.push b)) ++ [encode .loadkey]
  | .encb bytes => bytes.map (fun b => encode (.push b)) ++ [encode .enc]
  | .decb bytes => bytes.map (fun b => encode (.push b)) ++ [encode .dec]
  | .pop8 => List.replicate 8 (encode .pop)

/-- The assembler on one line: an ill-formed line is rejected by name. -/
def assembleItem (item : ScriptItem) : Except AsmError (List CmdWord) :=
  if item.wellFormed then .ok (wordsOf item) else .error .badOperand

/-- The assembler on a script. -/
def assemble : List ScriptItem → Except AsmError (List CmdWord)
  | [] => .ok []
  | item :: rest =>
    match assembleItem item, assemble rest with
    | .ok ws, .ok more => .ok (ws ++ more)
    | .error e, _ => .error e
    | .ok _, .error e => .error e

/-- A hexadecimal digit. -/
def hexDigit (ch : Char) : Option Nat :=
  if '0' ≤ ch ∧ ch ≤ '9' then some (ch.toNat - '0'.toNat)
  else if 'A' ≤ ch ∧ ch ≤ 'F' then some (ch.toNat - 'A'.toNat + 10)
  else if 'a' ≤ ch ∧ ch ≤ 'f' then some (ch.toNat - 'a'.toNat + 10)
  else none

/-- The values of a string of hexadecimal digits. -/
def hexDigits : List Char → Option (List Nat)
  | [] => some []
  | ch :: rest =>
    match hexDigit ch, hexDigits rest with
    | some v, some vs => some (v :: vs)
    | _, _ => none

/-- `0x` and exactly `count` digits, as a number (R78). -/
def hexNumber (count : Nat) : List Char → Option Nat
  | '0' :: 'x' :: digits =>
    match hexDigits digits with
    | some vs => if vs.length = count then some (vs.foldl (fun v x => 16 * v + x) 0) else none
    | none => none
  | _ => none

/-- Digits in pairs, as bytes, first two digits first (R79); an odd digit left over is no byte. -/
def pairBytes : List Nat → Option (List Byte)
  | [] => some []
  | [_] => none
  | hi :: lo :: rest =>
    match pairBytes rest with
    | some bs => some (BitVec.ofNat 8 (16 * hi + lo) :: bs)
    | none => none

/-- `h16`: sixteen hexadecimal digits read as 8 bytes (R79). -/
def hexBytes (digits : List Char) : Option (List Byte) :=
  match hexDigits digits with
  | some vs => if vs.length = 16 then pairBytes vs else none
  | none => none

/-- The characters that separate the parts of a line. -/
def isBlank (ch : Char) : Bool := ch == ' ' || ch == '\t' || ch == '\r'

/-- A line without its comment, which starts with `;` (R78). -/
def stripComment (line : List Char) : List Char := line.takeWhile fun ch => ch != ';'

/-- The parts of a line between blanks; `part` is the one being read. -/
def partsFrom (part : List Char) : List Char → List (List Char)
  | [] => if part.isEmpty then [] else [part]
  | ch :: rest =>
    if isBlank ch then (if part.isEmpty then partsFrom [] rest else part :: partsFrom [] rest)
    else partsFrom (part ++ [ch]) rest

/-- One operand read by `read`, made a line by `mk`. -/
def withOperand {α : Type} (read : Option α) (mk : α → ScriptItem) : Except AsmError (Option ScriptItem) :=
  match read with
  | some v => .ok (some (mk v))
  | none => .error .badOperand

/-- One line of a script: nothing for an empty line or a comment, otherwise what it stands for (R78, R79). -/
def parseLine (line : List Char) : Except AsmError (Option ScriptItem) :=
  match partsFrom [] (stripComment line) with
  | [] => .ok none
  | [['N', 'O', 'P']] => .ok (some (.command .nop))
  | [['L', 'O', 'A', 'D', 'K', 'E', 'Y']] => .ok (some (.command .loadkey))
  | [['E', 'N', 'C']] => .ok (some (.command .enc))
  | [['D', 'E', 'C']] => .ok (some (.command .dec))
  | [['P', 'O', 'P']] => .ok (some (.command .pop))
  | [['P', 'O', 'P', '8']] => .ok (some .pop8)
  | [['P', 'U', 'S', 'H'], n] => withOperand (hexNumber 2 n) fun v => .command (.push (BitVec.ofNat 8 v))
  | [['.', 'W', 'O', 'R', 'D'], n] =>
    withOperand ((hexNumber 3 n).bind fun v => if wordInRange v then some v else none) .word
  | [['K', 'E', 'Y'], h16] => withOperand (hexBytes h16) .key
  | [['E', 'N', 'C', 'B'], h16] => withOperand (hexBytes h16) .encb
  | [['D', 'E', 'C', 'B'], h16] => withOperand (hexBytes h16) .decb
  | _ => .error .unknownLine

/-- A whole script, line by line (R78): the items of its lines, or the first error. -/
def parseScript : List (List Char) → Except AsmError (List ScriptItem)
  | [] => .ok []
  | line :: rest =>
    match parseLine line, parseScript rest with
    | .ok none, .ok items => .ok items
    | .ok (some item), .ok items => .ok (item :: items)
    | .error e, _ => .error e
    | .ok _, .error e => .error e

/-- The text of a script to its words. -/
def assembleText (lines : List (List Char)) : Except AsmError (List CmdWord) :=
  match parseScript lines with
  | .ok items => assemble items
  | .error e => .error e

end Sys2Proof.Machine
end

