-- ==== Sys2Proof/Machine/HostCipher.lean ====
section
/-! DEFINITION. The host's duties: PaddedCipher, and how the host drives the core for one block
(spec/45_host_padded_cipher.md). Host software, no part of the machine. -/

namespace Sys2Proof.Machine

/-- How a call of the host fails: the two error kinds of the source (R207, R210), and what only the core can tell it. -/
inductive HostError where
  /-- The key buffer is not exactly 8 bytes (R210). -/
  | invalidKeyError
  /-- The ciphertext length is not a positive multiple of 8 (R207), or DEC refused a block (R223). -/
  | invalidInputError
  /-- The core answered a word with another fault. -/
  | coreFault (f : CmdFault)
  /-- The core answered a word with no response in time; not reached from an idle core (assumption entry 21). -/
  | noResponse
  deriving DecidableEq, Repr

/-- The `n` of R202; with `PAD_FULL_BLOCK = false` a message of whole blocks gets no byte. -/
def padLength (cfg : HostConfig) (len : Nat) : Nat :=
  if len % 8 = 0 && !cfg.padFullBlock then 0 else 8 - len % 8

/-- The padded message: `n` bytes each of value `n` (R202). -/
def pad (cfg : HostConfig) (M : List Byte) : List Byte :=
  M ++ List.replicate (padLength cfg M.length) (BitVec.ofNat 8 (padLength cfg M.length))

/-- The 8-byte blocks of a buffer, in order (R200, R206). The host splits only buffers of whole blocks (assumption
entry 17). -/
def blocksOf : List Byte → List Bytes8
  | b0 :: b1 :: b2 :: b3 :: b4 :: b5 :: b6 :: b7 :: rest => #v[b0, b1, b2, b3, b4, b5, b6, b7] :: blocksOf rest
  | _ => []

/-- One block transform on bytes, and the concatenation in block order: ECB (R200, R205, R206). -/
def mapBlocks (F : Block → Block) (buf : List Byte) : List Byte :=
  (blocksOf buf).flatMap fun b => (bytesOfBlock (F (blockOfBytes b))).toList

/-- A buffer of whole blocks keeps its length under a block transform. -/
theorem length_mapBlocks (F : Block → Block) (buf : List Byte) :
    (mapBlocks F buf).length = 8 * (buf.length / 8) := by
  fun_induction blocksOf buf with
  | case1 b0 b1 b2 b3 b4 b5 b6 b7 rest ih =>
    simp only [mapBlocks, blocksOf, List.flatMap_cons, List.length_append, Vector.length_toList,
      List.length_cons] at ih ⊢
    omega
  | case2 buf hshort =>
    have hlt : buf.length < 8 := by
      rcases buf with _ | ⟨a0, _ | ⟨a1, _ | ⟨a2, _ | ⟨a3, _ | ⟨a4, _ | ⟨a5, _ | ⟨a6, _ | ⟨a7, rest⟩⟩⟩⟩⟩⟩⟩⟩ <;>
        first
          | exact absurd rfl (hshort _ _ _ _ _ _ _ _ _)
          | (simp only [List.length_cons, List.length_nil]; omega)
    have hnil : blocksOf buf = [] := by
      unfold blocksOf
      split
      · exact absurd rfl (hshort _ _ _ _ _ _ _ _ _)
      · rfl
    simp only [mapBlocks, hnil, List.flatMap_nil, List.length_nil]
    omega

/-- `encrypt(M)` under one loaded key (R200): pad, split, encrypt each block, concatenate. It always succeeds. -/
def hostEncrypt (cfg : HostConfig) (K : SubkeyStore) (M : List Byte) : List Byte :=
  mapBlocks (encryptBlock K) (pad cfg M)

/-- The strip (R208): the last byte `p` is at most `PAD_STRIP_MAX` and the last `p` bytes all equal it, or nothing is
dropped. The buffer is not empty (R207; spec/91_not_in_source.md N16). -/
def strip (cfg : HostConfig) (B : List Byte) (hB : B ≠ []) : List Byte :=
  if (B.getLast hB).toNat ≤ cfg.padStripMax.val ∧
      ∀ b ∈ B.drop (B.length - (B.getLast hB).toNat), b = B.getLast hB then
    B.take (B.length - (B.getLast hB).toNat)
  else B

/-- `decrypt(Cx)` under one loaded key (R206, R207): the length check before anything is decrypted, then each block,
then the strip. -/
def hostDecrypt (cfg : HostConfig) (K : SubkeyStore) (Cx : List Byte) : Except HostError (List Byte) :=
  if h : Cx.length = 0 ∨ Cx.length % 8 ≠ 0 then .error .invalidInputError
  else .ok (strip cfg (mapBlocks (decryptBlock K) Cx) (by
    intro hnil
    have hlen := length_mapBlocks (decryptBlock K) Cx
    rw [hnil, List.length_nil] at hlen
    omega))

/-- Construction of a cipher instance from a key buffer (R210): exactly 8 bytes or `InvalidKeyError`. -/
def construct (key : List Byte) : Except HostError SubkeyStore :=
  if h : key.length = 8 then .ok (keySchedule (blockOfBytes ⟨key.toArray, by simpa using h⟩))
  else .error .invalidKeyError

/-- The words that hand one block to the core (R204): its 8 bytes pushed in order, ENC or DEC. -/
def blockWords (m : Mode) (b : Bytes8) : List CmdWord :=
  match m with
  | .encrypt => wordsOf (.encb b.toList)
  | .decrypt => wordsOf (.decb b.toList)

/-- All the command words for one block whose ENC or DEC succeeds (R204): then 8 POPs. The host that reads the responses
between is `driveBlock`. -/
def blockTransaction (m : Mode) (b : Bytes8) : List CmdWord := blockWords m b ++ wordsOf .pop8

/-- The command words of a whole message under one key: LOADKEY once, then a transaction for each block (R204). The host that reads the responses between is `driveWithKey`. -/
def messageTransaction (m : Mode) (key : Bytes8) (blocks : List Bytes8) : List CmdWord :=
  wordsOf (.key key.toList) ++ blocks.flatMap (blockTransaction m)

end Sys2Proof.Machine
end

