-- ==== Sys2Proof/Machine/HostDriver.lean ====
section
/-! DEFINITION. How the host drives the core (spec/45_host_padded_cipher.md R204): it presents one word, waits for its
response, and goes on only where that response is no fault. Host software, no part of the machine; assumption entry 21. -/

namespace Sys2Proof.Machine

/-- The host waits, at most `patience` steps, until the core drives a response. -/
def awaitResponse (patience : Nat) (s : State) : Option (State × Response) :=
  match patience with
  | 0 => none
  | n + 1 =>
    match step s with
    | .next t =>
      match t.rsp with
      | some r => some (t, r)
      | none => awaitResponse n t
    | .fault _ => none
    | .refused _ => none

/-- The host presents `w` and nothing else, and waits for its response. No command takes more steps than an ENC or a DEC
(spec/70_reset_and_hazards.md R262). -/
def issue (w : CmdWord) (s : State) : Option (State × Response) :=
  awaitResponse Config.ustepsCrypt { s with inputs := [.command w] }

/-- The error that a fault response is to the host's caller: the two kinds of the source keep their names (R210). -/
def hostErrorOf : CmdFault → HostError
  | .invalidKeyError => .invalidKeyError
  | .invalidInputError => .invalidInputError
  | .blockLengthFault => .coreFault .blockLengthFault
  | .noKeyFault => .coreFault .noKeyFault
  | .illegalCommand => .coreFault .illegalCommand
  | .outputEmptyFault => .coreFault .outputEmptyFault

/-- Words issued one after another, each after the response of the one before. The result is the data bytes of the
responses in order; at the first fault the host issues nothing more. -/
def drive : List CmdWord → State → State × Except HostError (List Byte)
  | [], s => (s, .ok [])
  | w :: ws, s =>
    match issue w s with
    | none => (s, .error .noResponse)
    | some (t, ⟨.fault f, _⟩) => (t, .error (hostErrorOf f))
    | some (t, ⟨.ok, data⟩) =>
      match drive ws t with
      | (u, .ok bytes) => (u, .ok (data :: bytes))
      | (u, .error e) => (u, .error e)

/-- The construction of a cipher instance in the core: the whole key buffer pushed, whatever its length, then LOADKEY,
which refuses it unless it is 8 bytes (R210). -/
def driveKey (key : List Byte) (s : State) : State × Except HostError Unit :=
  match drive (key.map (fun b => encode (.push b)) ++ [encode .loadkey]) s with
  | (t, .ok _) => (t, .ok ())
  | (t, .error e) => (t, .error e)

/-- One block (R204): its 8 bytes pushed in order, ENC or DEC; only after the response without a fault eight POPs, whose
data bytes in order are the output block. -/
def driveBlock (m : Mode) (b : Bytes8) (s : State) : State × Except HostError (List Byte) :=
  match drive (blockWords m b) s with
  | (t, .ok _) => drive (wordsOf .pop8) t
  | (t, .error e) => (t, .error e)

/-- The blocks of a buffer one after another, the output blocks concatenated in the same order (R200, R205, R206). -/
def driveBlocks (m : Mode) : List Bytes8 → State → State × Except HostError (List Byte)
  | [], s => (s, .ok [])
  | b :: blocks, s =>
    match driveBlock m b s with
    | (t, .error e) => (t, .error e)
    | (t, .ok out) =>
      match driveBlocks m blocks t with
      | (u, .ok more) => (u, .ok (out ++ more))
      | (u, .error e) => (u, .error e)

/-- `encrypt(M)` with the one loaded key, through the core (R200). -/
def driveEncrypt (cfg : HostConfig) (M : List Byte) (s : State) : State × Except HostError (List Byte) :=
  driveBlocks .encrypt (blocksOf (pad cfg M)) s

/-- `decrypt(Cx)` with the one loaded key, through the core (R206 to R208): a broken length is refused before any block is
sent. -/
def driveDecrypt (cfg : HostConfig) (Cx : List Byte) (s : State) : State × Except HostError (List Byte) :=
  if Cx.length = 0 ∨ Cx.length % 8 ≠ 0 then (s, .error .invalidInputError)
  else
    match driveBlocks .decrypt (blocksOf Cx) s with
    | (t, .ok B) => (t, .ok (if h : B = [] then B else strip cfg B h))
    | (t, .error e) => (t, .error e)

/-- LOADKEY once, then the call, which sends none (R204). -/
def driveWithKey (key : List Byte) (call : State → State × Except HostError (List Byte)) (s : State) :
    State × Except HostError (List Byte) :=
  match driveKey key s with
  | (t, .ok ()) => call t
  | (t, .error e) => (t, .error e)

end Sys2Proof.Machine
end

