-- ==== Sys2Proof/Machine/CommandLevel.lean ====
section
/-! DEFINITION. The command-level view (spec/92_eei_decisions.md D24): each command one atomic step, as
spec/42_keyschedule.md R135 and spec/44_blockcipher.md R178 give it. The micro-step machine refines it. -/

namespace Sys2Proof.Machine

/-- LOADKEY as one step (R135): the whole schedule of the key in `IBUF`, `C = C_16`, `D = D_16`, the response. -/
def loadKeyAtOnce (s : State) : State :=
  succeed 0#8 { s with
    k := keySchedule (inputBlock s)
    c := halfAfter (keyC0 (inputBlock s)) 16
    d := halfAfter (keyD0 (inputBlock s)) 16
    keyValid := true
    icnt := 0
    rndctr := 16
    phase := .idle
    draws := s.draws + 1 }

/-- ENC or DEC as one step (R178): the output bytes, `L_16`, `R_16`, the response. -/
def cipherAtOnce (m : Mode) (s : State) : State :=
  succeed 0#8 { s with
    obuf := bytesOfBlock (cryptBlock (inputBlock s) s.k m)
    ocnt := 8
    l := (halvesAfter s.k m (startHalves (inputBlock s)) 16).1
    r := (halvesAfter s.k m (startHalves (inputBlock s)) 16).2
    mode := m
    icnt := 0
    rndctr := 16
    phase := .idle }

/-- The one-step meaning of each command (D24). -/
def commandAtOnce (i : Instr) (s : State) : State :=
  match i with
  | .nop => respond .ok 0#8 s
  | .push imm8 => succeed 0#8 (pushByte imm8 s)
  | .loadkey => if inputComplete s then loadKeyAtOnce s else takeFault .invalidKeyError s
  | .enc =>
    if !s.keyValid then takeFault .noKeyFault s
    else if inputComplete s then cipherAtOnce .encrypt s else takeFault .blockLengthFault s
  | .dec =>
    if !s.keyValid then takeFault .noKeyFault s
    else if inputComplete s then cipherAtOnce .decrypt s else takeFault .invalidInputError s
  | .pop =>
    if h : s.ocnt.val = 0 then takeFault .outputEmptyFault s else succeed (nextOutput s h) (consumeOutput s)
  | .reserved110 => takeFault .illegalCommand s
  | .reserved111 => takeFault .illegalCommand s

/-- How many steps a command takes, its accepting step included (spec/70_reset_and_hazards.md R262). -/
def commandSteps (i : Instr) (s : State) : Nat :=
  match i with
  | .nop => 1
  | .push _ => 1
  | .loadkey => if inputComplete s then Config.ustepsLoadkey else 1
  | .enc => if s.keyValid && inputComplete s then Config.ustepsCrypt else 1
  | .dec => if s.keyValid && inputComplete s then Config.ustepsCrypt else 1
  | .pop => 1
  | .reserved110 => 1
  | .reserved111 => 1

/-- A list of command words, each as one step, in order (spec/30_encoding.md R70: "takes a list of command words"). -/
def runCommands (ws : List CmdWord) (s : State) : State := ws.foldl (fun t w => commandAtOnce (decode w) t) s

end Sys2Proof.Machine
end

