-- ==== Sys2Proof/Safety.lean ====
section
/-! DEFINITION. What holds in a good state (spec/10_state.md R32), and what a claim about a run says. The bounds of
R32 on `ICNT`, `OCNT`, `PHASE`, `RNDCTR` and `ERR` hold by type. -/

namespace Sys2Proof.Machine

/-- The sequencer's part of R32: `PHASE = RND` implies `KEYVALID = 1`, `PHASE = KS` implies `KEYVALID = 0`; and in
`PHASE = KS` `RNDCTR` is at most 15 (spec/42_keyschedule.md R134). -/
def ControlInv (s : State) : Prop :=
  (s.phase = .rnd → s.keyValid = true) ∧ (s.phase = .ks → s.keyValid = false ∧ s.rndctr.val ≤ 15)

/-- The subkey store's part of R32: while `KEYVALID = 1`, `K[1..16]` are the schedule of one master key; while a key
schedule runs, `C`, `D` and the subkeys written so far are those of one master key (R27, spec/42_keyschedule.md R134). -/
def KeyInv (s : State) : Prop :=
  (s.keyValid = true → ∃ X : Block, s.k = keySchedule X) ∧
  (s.phase = .ks → ∃ X : Block, s.c = halfAfter (keyC0 X) s.rndctr.val ∧ s.d = halfAfter (keyD0 X) s.rndctr.val ∧
    ∀ i : Fin 16, i.val < s.rndctr.val → s.k[i.val] = subkeyAt X (i.val + 1))

/-- While a block operation on the block `X` runs, there is a key, and `L` and `R` are the halves of that `X` after
`RNDCTR` rounds (spec/10_state.md R25, R27; spec/44_blockcipher.md R176). `X` is given from outside: some block fits any
two halves, so that a block chosen afterwards would say nothing. -/
def CipherInv (X : Block) (s : State) : Prop :=
  s.phase = .rnd → s.keyValid = true ∧ (s.l, s.r) = halvesAfter s.k s.mode (startHalves X) s.rndctr.val

/-- No reset is among what the host goes on to present. -/
def NoReset (s : State) : Prop := ∀ e ∈ s.inputs, e ≠ HostEvent.reset

/-- The host presents this command next and goes on with commands or nothing: no reset and no gap right behind it, so
that the inputs behind it stand untouched until the command has completed (spec/30_encoding.md R72). -/
def Presents (s : State) (w : CmdWord) (rest : List HostEvent) : Prop :=
  s.inputs = .command w :: rest ∧ ∀ e ∈ rest, ∃ w', e = HostEvent.command w'

/-- How many micro-steps a running operation still has to go: 16 key-schedule micro-steps, or 16 rounds and the final
one (spec/70_reset_and_hazards.md R262). -/
def microStepsLeft (s : State) : Nat :=
  match s.phase with
  | .idle => 0
  | .ks => 16 - s.rndctr.val
  | .rnd => 17 - s.rndctr.val

/-- What is left of a host event without the byte of a PUSH and without ignored bits. -/
inductive EventKind where
  | command (op : BitVec 3)
  | quiet
  | reset
  deriving DecidableEq, Repr

/-- The kind of a host event. -/
def HostEvent.kind : HostEvent → EventKind
  | .command w => .command (opField w)
  | .quiet => .quiet
  | .reset => .reset

/-- Two states with the same control registers and the same kinds of inputs, whatever the data registers and the
pushed bytes are (spec/10_state.md R31). -/
def SameControl (s t : State) : Prop :=
  s.icnt = t.icnt ∧ s.ocnt = t.ocnt ∧ s.keyValid = t.keyValid ∧ s.mode = t.mode ∧ s.phase = t.phase ∧
  s.rndctr = t.rndctr ∧ s.err = t.err ∧ s.inputs.map HostEvent.kind = t.inputs.map HostEvent.kind ∧
  s.rsp.map Response.err = t.rsp.map Response.err ∧ s.rspLog.map Response.err = t.rspLog.map Response.err

end Sys2Proof.Machine
end

