-- ==== Sys2Proof/Certificates/Slice0/Obligations.lean ====
section
/-! DEFINITION. The statements about DESCORE, for the provers. -/

open Sys2Proof Sys2Proof.Machine

/-! ### Encoding -/

/-- Decoding what the encoder emits gives the command back, at every operand; encoding what the decoder reads gives
the word back with the ignored bits of format `C0` zeroed; a number wider than 11 bits is no command (the model's
choice, assumption entry 11). -/
def Obligations.DecodeAndEncodeAgree : Prop :=
  (∀ i : Instr, i.wellFormed = true → decodeNat (encode i).toNat = .ok i) ∧
  (∀ w : CmdWord, encode (decode w) = if opField w = 0b001#3 then w else w &&& 0x700#11) ∧
  (∀ n : Nat, 2048 ≤ n → decodeNat n = .error .notElevenBits)

/-- The words of spec/30_encoding.md section 2 and of R78, written out bit by bit, decode to their commands; so do words
with ignored bits set. -/
def Obligations.OpcodeTableWordsDecode : Prop :=
  decode 0b00000000000#11 = .nop ∧ decode 0b00011111111#11 = .nop ∧
  decode 0b00100010011#11 = .push 0x13#8 ∧ decode 0b00111110001#11 = .push 0xF1#8 ∧
  decode 0b01000000000#11 = .loadkey ∧ decode 0b01100000000#11 = .enc ∧ decode 0b10000000000#11 = .dec ∧
  decode 0b10100000000#11 = .pop ∧ decode 0b11010101011#11 = .reserved110 ∧ decode 0b11100000000#11 = .reserved111

/-- A word is decoded by its `op` field alone: the command's opcode is the word's, two words of one opcode other than
PUSH are the same command, and two PUSH words differ by their byte alone. -/
def Obligations.WordDecodesByOpFieldAlone : Prop :=
  (∀ w : CmdWord, (decode w).op = opField w) ∧
  (∀ w w' : CmdWord, opField w = opField w' → opField w ≠ 0b001#3 → decode w = decode w') ∧
  (∀ w : CmdWord, opField w = 0b001#3 → decode w = .push (imm8Field w))

/-- The match and mask columns of the opcode table: a word is a row's command exactly when its masked bits are the row's
match. -/
def Obligations.MatchAndMaskSelectTheCommand : Prop :=
  ∀ w : CmdWord,
    (decode w = .nop ↔ w &&& 0x700#11 = 0x000#11) ∧
    ((∃ b, decode w = .push b) ↔ w &&& 0x700#11 = 0x100#11) ∧
    (decode w = .loadkey ↔ w &&& 0x700#11 = 0x200#11) ∧
    (decode w = .enc ↔ w &&& 0x700#11 = 0x300#11) ∧
    (decode w = .dec ↔ w &&& 0x700#11 = 0x400#11) ∧
    (decode w = .pop ↔ w &&& 0x700#11 = 0x500#11) ∧
    (decode w = .reserved110 ↔ w &&& 0x700#11 = 0x600#11) ∧
    (decode w = .reserved111 ↔ w &&& 0x700#11 = 0x700#11)

/-- The pseudo-commands of R79 and their expansions, for every eight bytes; and the text of R79's example. -/
def Obligations.PseudoCommandsExpand : Prop :=
  (∀ bytes : List Byte, bytes.length = 8 →
    assembleItem (.key bytes) = .ok (bytes.map (fun b => encode (.push b)) ++ [0x200#11]) ∧
    assembleItem (.encb bytes) = .ok (bytes.map (fun b => encode (.push b)) ++ [0x300#11]) ∧
    assembleItem (.decb bytes) = .ok (bytes.map (fun b => encode (.push b)) ++ [0x400#11]) ∧
    assembleItem .pop8 = .ok [0x500#11, 0x500#11, 0x500#11, 0x500#11, 0x500#11, 0x500#11, 0x500#11, 0x500#11]) ∧
  (assembleText [['K', 'E', 'Y', ' ', '1', '3', '3', '4', '5', '7', '7', '9', '9', 'B', 'B', 'C', 'D', 'F', 'F', '1']] =
    .ok [0x113#11, 0x134#11, 0x157#11, 0x179#11, 0x19B#11, 0x1BC#11, 0x1DF#11, 0x1F1#11, 0x200#11])

/-! ### The port and the step -/

/-- An idle core that is presented a command takes, in that step, exactly `exec` of the decoded command, on the state
whose input is consumed and whose response pulse is over (the model's form of the port, assumption entries 4 and 7). -/
def Obligations.StepRunsThePresentedCommand : Prop :=
  ∀ (s : State) (w : CmdWord) (rest : List HostEvent), s.phase = .idle → s.inputs = .command w :: rest →
    step s = exec (decode w) { s with inputs := rest, rsp := none }

/-- The host's way to run one word: whatever the state, `withFetchWord` presents it to an idle core, and the next step is
`exec` of what the decoder reads from it (the model's form of the host port, assumption entries 4 and 11). -/
def Obligations.FetchedWordRuns : Prop :=
  ∀ (s : State) (nbits w : Nat) (i : Instr), decodeTableWord nbits w = some i →
    step (s.withFetchWord nbits w) = exec i { s with phase := .idle, rsp := none }

/-- A command presented while an operation runs waits (`BUSY = 1`, `cmd_ready = 0`): it stays presented, the step is the one the core would take with
nothing presented, and no fault comes of it; once the operation has completed, the next step accepts it. -/
def Obligations.CommandWaitsWhileBusy : Prop :=
  ∀ (s : State) (w : CmdWord) (rest : List HostEvent), ControlInv s → s.phase ≠ .idle →
    s.inputs = .command w :: rest →
    busy s = true ∧ cmdReady s = false ∧
    ∃ t, step s = .next t ∧ t.inputs = .command w :: rest ∧
      step { s with inputs := [] } = .next { t with inputs := [] } ∧
      (t.phase = .idle → step t = exec (decode w) { t with inputs := rest, rsp := none })

/-- After reset the core waits in IDLE, ready, and with nothing presented a step changes nothing (that waiting is a step
is the model's choice, assumption entry 6). -/
def Obligations.ResetCoreWaitsForTheHost : Prop :=
  cmdReady State.reset = true ∧ step State.reset = .next State.reset ∧
  ∀ s : State, s.phase = .idle → s.inputs = [] → step s = .next { s with rsp := none }

/-- Reset, from every state and in the middle of any operation: every control register 0, no response, no command
accepted at that step; whatever the data registers hold after. `inputs` and `rspLog` are the model's form of the host
(assumption entries 4 and 7). -/
def Obligations.ResetEdgeFromEveryState : Prop :=
  ∀ (s : State) (rest : List HostEvent), s.inputs = .reset :: rest →
    ∃ t, step s = .next t ∧ t.phase = .idle ∧ t.rndctr = 0 ∧ t.keyValid = false ∧ t.mode = .encrypt ∧ t.err = .ok ∧
      t.icnt = 0 ∧ t.ocnt = 0 ∧ status t = 0#16 ∧ t.rsp = none ∧ t.rspLog = s.rspLog ∧ t.inputs = rest

/-- The control registers after reset, and `STATUS = 0x0000`. -/
def Obligations.ResetStateControlRegisters : Prop :=
  State.reset.phase = .idle ∧ State.reset.rndctr = 0 ∧ State.reset.keyValid = false ∧ State.reset.mode = .encrypt ∧
  State.reset.err = .ok ∧ State.reset.icnt = 0 ∧ State.reset.ocnt = 0 ∧ status State.reset = 0x0000#16

/-- `STATUS`, field by field; the reserved bits read as 0 in every state; nothing but `PHASE != IDLE` and the four
registers it shows can be told from it. -/
def Obligations.StatusFields : Prop :=
  (∀ s : State,
    ((status s).getLsbD 15 = true ↔ s.phase ≠ .idle) ∧ (status s).getLsbD 14 = s.keyValid ∧
    (status s).extractLsb' 11 3 = s.err.code ∧ (status s).extractLsb' 8 3 = 0#3 ∧
    ((status s).extractLsb' 4 4).toNat = s.icnt.val ∧ ((status s).extractLsb' 0 4).toNat = s.ocnt.val) ∧
  (∀ s t : State, (s.phase = .idle ↔ t.phase = .idle) → s.keyValid = t.keyValid → s.err = t.err → s.icnt = t.icnt →
    s.ocnt = t.ocnt → status s = status t)

/-! ### The commands: effect and frame -/

/-- NOP, whatever its ignored bits, responds `(0, 0x00)` and writes no register, `ERR` not either. -/
def Obligations.NopOnlyResponds : Prop :=
  (∀ w : CmdWord, opField w = 0b000#3 → decode w = .nop) ∧
  ∀ s : State, exec .nop s = .next { s with rsp := some ⟨.ok, 0x00#8⟩, rspLog := s.rspLog ++ [⟨.ok, 0x00#8⟩] }

/-- PUSH, encoded by `op = 001` with its byte in bits 7:0. With room: the byte goes to `IBUF[ICNT]` and `ICNT` counts up. Into a full buffer: the byte is dropped and
`ICNT` becomes 9 and stays 9. Either way `ERR` is 0, the response `(0, 0x00)`, and nothing else changes. -/
def Obligations.PushAppendsOrRemembersOverflow : Prop :=
  (∀ w : CmdWord, opField w = 0b001#3 → decode w = .push (imm8Field w)) ∧
  (∀ (b : Byte) (s : State), s.icnt.val ≤ 7 →
    ∃ t, exec (.push b) s = .next t ∧ t.icnt.val = s.icnt.val + 1 ∧
      (∀ j : Fin 8, t.ibuf[j.val] = if j.val = s.icnt.val then b else s.ibuf[j.val]) ∧
      t = { s with
        ibuf := t.ibuf, icnt := t.icnt, err := .ok, rsp := some ⟨.ok, 0x00#8⟩
        rspLog := s.rspLog ++ [⟨.ok, 0x00#8⟩] }) ∧
  (∀ (b : Byte) (s : State), ¬ s.icnt.val ≤ 7 →
    exec (.push b) s = .next { s with
      icnt := 9, err := .ok, rsp := some ⟨.ok, 0x00#8⟩, rspLog := s.rspLog ++ [⟨.ok, 0x00#8⟩] })

/-- POP with unread output: it returns `OBUF[8 - OCNT]`, counts down, clears `ERR`; with none it raises
OutputEmptyFault and changes `ERR` alone. Nothing else changes. A LOADKEY leaves `OBUF` and `OCNT`. -/
def Obligations.PopReturnsTheNextByte : Prop :=
  (∀ w : CmdWord, opField w = 0b101#3 → decode w = .pop) ∧
  (∀ s t : State, exec .loadkey s = .next t → t.obuf = s.obuf ∧ t.ocnt = s.ocnt) ∧
  (∀ (s : State) (h : s.ocnt.val ≠ 0),
    ∃ t, exec .pop s = .next t ∧ t.ocnt.val + 1 = s.ocnt.val ∧
      t = { s with
        ocnt := t.ocnt, err := .ok, rsp := some ⟨.ok, s.obuf[8 - s.ocnt.val]'(by omega)⟩
        rspLog := s.rspLog ++ [⟨.ok, s.obuf[8 - s.ocnt.val]'(by omega)⟩] }) ∧
  (∀ s : State, s.ocnt.val = 0 →
    exec .pop s = .next { s with
      err := .fault .outputEmptyFault, rsp := some ⟨.fault .outputEmptyFault, 0x00#8⟩
      rspLog := s.rspLog ++ [⟨.fault .outputEmptyFault, 0x00#8⟩] }) ∧
  RspCode.code .ok = 0#3 ∧ RspCode.code (.fault .outputEmptyFault) = 6#3

/-- LOADKEY, accepting step. With exactly eight bytes: PC1, the two halves, the schedule starts, no response yet. With any
other count: InvalidKeyError, the old instance gone, the buffer flushed, code 1 recorded and returned. Nothing else
changes. What `K[1..16]` hold after it is open (R24), and `draws` is the model's own counter (assumption entries 2, 3). -/
def Obligations.LoadkeyAcceptsExactlyEightBytes : Prop :=
  (∀ w : CmdWord, opField w = 0b010#3 → decode w = .loadkey) ∧
  (∀ s : State, s.icnt = 8 →
    ∃ kAny n, exec .loadkey s = .next { s with
      c := slice (permute (blockOfBytes s.ibuf) pc1Table) 1 28
      d := slice (permute (blockOfBytes s.ibuf) pc1Table) 29 28
      keyValid := false, icnt := 0, rndctr := 0, phase := .ks, k := kAny, draws := n }) ∧
  (∀ s : State, s.icnt ≠ 8 →
    ∃ kAny n, exec .loadkey s = .next { s with
      keyValid := false, icnt := 0, err := .fault .invalidKeyError
      rsp := some ⟨.fault .invalidKeyError, 0x00#8⟩
      rspLog := s.rspLog ++ [⟨.fault .invalidKeyError, 0x00#8⟩], k := kAny, draws := n }) ∧
  RspCode.code (.fault .invalidKeyError) = 1#3

/-- ENC, accepting step: without a key NoKeyFault, whatever the count; with a key and a count other than 8
BlockLengthFault; otherwise IP, the two halves, `MODE <- 0`, the rounds start, no response yet. Nothing else changes. -/
def Obligations.EncChecksThenStartsTheRounds : Prop :=
  (∀ w : CmdWord, opField w = 0b011#3 → decode w = .enc) ∧
  (∀ s : State, s.keyValid = false →
    exec .enc s = .next { s with
      icnt := 0, err := .fault .noKeyFault, rsp := some ⟨.fault .noKeyFault, 0x00#8⟩
      rspLog := s.rspLog ++ [⟨.fault .noKeyFault, 0x00#8⟩] }) ∧
  (∀ s : State, s.keyValid = true → s.icnt ≠ 8 →
    exec .enc s = .next { s with
      icnt := 0, err := .fault .blockLengthFault, rsp := some ⟨.fault .blockLengthFault, 0x00#8⟩
      rspLog := s.rspLog ++ [⟨.fault .blockLengthFault, 0x00#8⟩] }) ∧
  (∀ s : State, s.keyValid = true → s.icnt = 8 →
    exec .enc s = .next { s with
      l := slice (permute (blockOfBytes s.ibuf) ipTable) 1 32
      r := slice (permute (blockOfBytes s.ibuf) ipTable) 33 32
      mode := .encrypt, icnt := 0, rndctr := 0, phase := .rnd }) ∧
  RspCode.code (.fault .noKeyFault) = 4#3 ∧ RspCode.code (.fault .blockLengthFault) = 3#3

/-- DEC, accepting step: as ENC, with `MODE <- 1` and InvalidInputError for a count other than 8. -/
def Obligations.DecChecksThenStartsTheRounds : Prop :=
  (∀ w : CmdWord, opField w = 0b100#3 → decode w = .dec) ∧
  (∀ s : State, s.keyValid = false →
    exec .dec s = .next { s with
      icnt := 0, err := .fault .noKeyFault, rsp := some ⟨.fault .noKeyFault, 0x00#8⟩
      rspLog := s.rspLog ++ [⟨.fault .noKeyFault, 0x00#8⟩] }) ∧
  (∀ s : State, s.keyValid = true → s.icnt ≠ 8 →
    exec .dec s = .next { s with
      icnt := 0, err := .fault .invalidInputError, rsp := some ⟨.fault .invalidInputError, 0x00#8⟩
      rspLog := s.rspLog ++ [⟨.fault .invalidInputError, 0x00#8⟩] }) ∧
  (∀ s : State, s.keyValid = true → s.icnt = 8 →
    exec .dec s = .next { s with
      l := slice (permute (blockOfBytes s.ibuf) ipTable) 1 32
      r := slice (permute (blockOfBytes s.ibuf) ipTable) 33 32
      mode := .decrypt, icnt := 0, rndctr := 0, phase := .rnd }) ∧
  RspCode.code (.fault .noKeyFault) = 4#3 ∧ RspCode.code (.fault .invalidInputError) = 2#3

/-- A reserved word raises IllegalCommand: no state changes but `ERR <- 5`, and the response is `(5, 0x00)`. -/
def Obligations.ReservedWordsRaiseIllegalCommand : Prop :=
  (∀ w : CmdWord, opField w = 0b110#3 ∨ opField w = 0b111#3 → decode w = .reserved110 ∨ decode w = .reserved111) ∧
  (∀ (s : State) (i : Instr), i = .reserved110 ∨ i = .reserved111 →
    exec i s = .next { s with
      err := .fault .illegalCommand, rsp := some ⟨.fault .illegalCommand, 0x00#8⟩
      rspLog := s.rspLog ++ [⟨.fault .illegalCommand, 0x00#8⟩] }) ∧
  RspCode.code (.fault .illegalCommand) = 5#3

/-- What every fault does, whichever command raises it: the code is recorded and returned with data 00, `PHASE` stays,
codes 1 to 4 flush the input buffer and 5 and 6 do not, code 1 alone destroys the key, and every other register is as
it was. -/
def Obligations.EveryFaultIsPrecise : Prop :=
  ∀ (i : Instr) (s t : State) (f : CmdFault) (x : Byte), s.rsp = none → exec i s = .next t →
    t.rsp = some ⟨.fault f, x⟩ →
    x = 0x00#8 ∧ t.err = .fault f ∧ t.rspLog = s.rspLog ++ [⟨.fault f, 0x00#8⟩] ∧ t.phase = s.phase ∧
    t.icnt = (if (RspCode.fault f).code = 5#3 ∨ (RspCode.fault f).code = 6#3 then s.icnt else 0) ∧
    t.keyValid = (if (RspCode.fault f).code = 1#3 then false else s.keyValid) ∧
    ((RspCode.fault f).code ≠ 1#3 → t.k = s.k) ∧
    t.ibuf = s.ibuf ∧ t.obuf = s.obuf ∧ t.ocnt = s.ocnt ∧ t.c = s.c ∧ t.d = s.d ∧ t.l = s.l ∧ t.r = s.r ∧
    t.mode = s.mode ∧ t.rndctr = s.rndctr ∧ t.inputs = s.inputs

/-- What no accepting step of a command touches: each register is written only by the commands that its row of
spec/10_state.md sections 2 and 3 names. `draws` is the model's own counter (assumption entry 3). -/
def Obligations.CommandFrames : Prop :=
  ∀ (i : Instr) (s t : State), exec i s = .next t →
    t.inputs = s.inputs ∧ t.obuf = s.obuf ∧
    ((∀ b, i ≠ .push b) → t.ibuf = s.ibuf) ∧
    (i ≠ .pop → t.ocnt = s.ocnt) ∧
    (i ≠ .loadkey → t.k = s.k ∧ t.keyValid = s.keyValid ∧ t.c = s.c ∧ t.d = s.d ∧ t.draws = s.draws) ∧
    (i ≠ .enc → i ≠ .dec → t.l = s.l ∧ t.r = s.r ∧ t.mode = s.mode) ∧
    (i ≠ .loadkey → i ≠ .enc → i ≠ .dec → t.phase = s.phase ∧ t.rndctr = s.rndctr) ∧
    ((∀ b, i ≠ .push b) → i ≠ .loadkey → i ≠ .enc → i ≠ .dec → t.icnt = s.icnt) ∧
    (i = .nop → t.err = s.err)

/-! ### The micro-steps -/

/-- The key-schedule micro-step, as a step of the machine: shift both halves, write `K[i]`, count; the sixteenth makes
the key valid, goes idle and responds. Nothing else changes. After it `C = C_i`, `D = D_i` and `K[i] = subkey_i`, where
`C` and `D` were `C_(i-1)` and `D_(i-1)`. -/
def Obligations.KeyScheduleMicroStep : Prop :=
  ∀ (s : State) (n : Fin 16), s.phase = .ks → s.keyValid = false → s.rndctr.val = n.val → rstPin s = false →
    ∃ t, step s = .next t ∧
      t.c = rotl s.c (shiftAmount (n.val + 1)) ∧ t.d = rotl s.d (shiftAmount (n.val + 1)) ∧
      t.k = s.k.set n.val (permute (t.c ++ t.d : KeyHalves) pc2Table) ∧ t.rndctr.val = n.val + 1 ∧
      (if n.val = 15 then
        t.keyValid = true ∧ t.phase = .idle ∧ t.err = .ok ∧ t.rsp = some ⟨.ok, 0x00#8⟩ ∧
          t.rspLog = s.rspLog ++ [⟨.ok, 0x00#8⟩]
      else
        t.keyValid = false ∧ t.phase = .ks ∧ t.err = s.err ∧ t.rsp = none ∧ t.rspLog = s.rspLog) ∧
      (∀ X : Block, s.c = halfAfter (keyC0 X) n.val → s.d = halfAfter (keyD0 X) n.val →
        t.c = halfAfter (keyC0 X) (n.val + 1) ∧ t.d = halfAfter (keyD0 X) (n.val + 1) ∧
          t.k[n.val] = subkeyAt X (n.val + 1)) ∧
      t = { s with
        c := t.c, d := t.d, k := t.k, rndctr := t.rndctr, keyValid := t.keyValid, phase := t.phase, err := t.err
        rsp := t.rsp, rspLog := t.rspLog, inputs := remainingInputs s }

/-- The round micro-step, as a step of the machine: one Feistel round with `K[n]` or `K[17 - n]`, both halves computed
from the values before; `K` is read and never written; nothing else changes. After it `(L, R) = (L_n, R_n)`, where they
were `(L_(n-1), R_(n-1))`. -/
def Obligations.RoundMicroStep : Prop :=
  ∀ (s : State) (n : Fin 16), s.phase = .rnd → s.keyValid = true → s.rndctr.val = n.val → rstPin s = false →
    ∃ t, step s = .next t ∧ t.l = s.r ∧ t.rndctr.val = n.val + 1 ∧
      (s.mode = .encrypt → t.r = s.l ^^^ feistel s.r s.k[n.val]) ∧
      (s.mode = .decrypt → t.r = s.l ^^^ feistel s.r (s.k[15 - n.val]'(by omega))) ∧
      (∀ X : Block, (s.l, s.r) = halvesAfter s.k s.mode (startHalves X) n.val →
        (t.l, t.r) = halvesAfter s.k s.mode (startHalves X) (n.val + 1)) ∧
      t = { s with l := t.l, r := t.r, rndctr := t.rndctr, rsp := none, inputs := remainingInputs s }

/-- The final micro-step, as a step of the machine: swap, IP⁻¹, all of `OBUF`, `OCNT <- 8`, idle, `ERR <- 0`, the
response; `L`, `R`, `MODE`, `RNDCTR` and everything else keep their values. -/
def Obligations.FinalMicroStep : Prop :=
  ∀ s : State, s.phase = .rnd → s.keyValid = true → s.rndctr.val = 16 → rstPin s = false →
    step s = .next { s with
      obuf := bytesOfBlock (permute (s.r ++ s.l : Block) ipInvTable)
      ocnt := 8, phase := .idle, err := .ok, rsp := some ⟨.ok, 0x00#8⟩
      rspLog := s.rspLog ++ [⟨.ok, 0x00#8⟩], inputs := remainingInputs s }

/-! ### The pure functions -/

/-- The codec's two functions undo each other, at every length. -/
def Obligations.CodecIsInverse : Prop :=
  ∀ m : Nat, (∀ b : Vector Byte m, bitsToBytes (bytesToBits b) = b) ∧
    (∀ x : BitVec (8 * m), bytesToBits (bitsToBytes x) = x)

/-- `permute`: output position `i` is the input position that entry `i` names, for every table and every input; the
output is as long as the table. -/
def Obligations.PermuteCopiesPositions : Prop :=
  (∀ (n m : Nat) (bits : BitVec n) (T : PermTable n m),
    T.entries.length = m ∧ ∀ i : Fin m, pos (permute bits T) (i.val + 1) = pos bits (T.entry i)) ∧
  permute 0b1011#4 (⟨[4, 1, 1, 2], by decide⟩ : PermTable 4 4) = 0b1110#4

/-- `IP` and `IP⁻¹` are exact inverses, both ways round, on every block and entry by entry. -/
def Obligations.InitialPermutationIsInverted : Prop :=
  (∀ B : Block, permute (permute B ipTable) ipInvTable = B ∧ permute (permute B ipInvTable) ipTable = B) ∧
  ∀ i : Fin 64, ipInvTable.entries[ipTable.entry i - 1]? = some (i.val + 1) ∧
    ipTable.entries[ipInvTable.entry i - 1]? = some (i.val + 1)

/-- The structural facts of the six tables. -/
def Obligations.TableStructure : Prop :=
  (∀ v ∈ List.range' 1 64, ipTable.entries.count v = 1 ∧ ipInvTable.entries.count v = 1) ∧
  (∀ v ∈ List.range' 1 32, pTable.entries.count v = 1) ∧
  (∀ v ∈ List.range' 1 32, eTable.entries.count v = if v % 4 = 0 ∨ v % 4 = 1 then 2 else 1) ∧
  pc1Table.entries.Nodup ∧ (∀ v ∈ pc1Table.entries, v % 8 ≠ 0) ∧ pc2Table.entries.Nodup ∧
  ipTable.entries.length = 64 ∧ ipInvTable.entries.length = 64 ∧ eTable.entries.length = 48 ∧
  pTable.entries.length = 32 ∧ pc1Table.entries.length = 56 ∧ pc2Table.entries.length = 48

/-- Every row of every S-box holds each value 0 to 15 once; and with `a = num(g)` the row is `2*a[5] + a[0]` and the
column `a[4:1]`. -/
def Obligations.SboxShapeAndAddressing : Prop :=
  (∀ (i : Fin 8) (row : Fin 4), ∀ v ∈ List.range 16,
    ((List.finRange 16).map fun col => sboxEntry (sbox i) row col).count v = 1) ∧
  (∀ g : BitVec 6, (sboxRow g).val = 2 * (g.getLsbD 5).toNat + (g.getLsbD 0).toNat ∧
    (sboxCol g).val = (g.extractLsb' 1 4).toNat)

/-- Group `i` of the f-function's 48-bit value is the six positions `4i-4 .. 4i+1` of `R`, taken cyclically, xored with
`k{6i-5 .. 6i}`; and `o_i` fills positions `4i-3 .. 4i` of the S-box output. -/
def Obligations.GroupsFollowTheExpansion : Prop :=
  (∀ (R : Half) (k : Subkey) (i : Fin 8) (j : Fin 6),
    pos (group (permute R eTable ^^^ k) i) (j.val + 1) =
      Bool.xor (pos R ((4 * i.val + j.val + 31) % 32 + 1)) (pos k (6 * i.val + j.val + 1))) ∧
  (∀ (x : Subkey) (i : Fin 8), slice (sboxLayer x) (4 * i.val + 1) 4 = sboxOut i (group x i))

/-- A round is undone with the same subkey. -/
def Obligations.RoundIsUndoneByTheSameSubkey : Prop :=
  ∀ (L R newL newR : Half) (k : Subkey), round (L, R) k = (newL, newR) →
    R = newL ∧ L = newR ^^^ feistel newL k

/-- The shifts of the sixteen rounds sum to 28: `C_i` is `C_0` shifted by the running sum of R132's table, and `C_16`
is `C_0`; so for `D`. -/
def Obligations.ShiftsReturnToTheStart : Prop :=
  ∀ h : HalfKey, halfAfter h 16 = h ∧
    ∀ i : Fin 17, halfAfter h i.val =
      rotl h ([0, 1, 2, 4, 6, 8, 10, 12, 14, 15, 17, 19, 21, 23, 25, 27, 28][i.val]'(by simp))

/-- A key whose halves are constant has sixteen equal subkeys. -/
def Obligations.ConstantHalvesGiveEqualSubkeys : Prop :=
  ∀ X : Block, (keyC0 X = 0#28 ∨ keyC0 X = BitVec.allOnes 28) → (keyD0 X = 0#28 ∨ keyD0 X = BitVec.allOnes 28) →
    ∀ i j : Fin 16, (keySchedule X)[i.val] = (keySchedule X)[j.val]

/-- The eight bits PC1 drops have no effect: two keys that differ only there load the same schedule. -/
def Obligations.ParityBitsHaveNoEffect : Prop :=
  ∀ X Y : Block, (∀ i : Nat, 1 ≤ i → i ≤ 64 → i % 8 ≠ 0 → pos X i = pos Y i) → keySchedule X = keySchedule Y

/-- Decryption undoes encryption, and encryption decryption, under any sixteen subkeys and on every block; and round by
round the halves of the decryption are the swapped halves of the encryption. -/
def Obligations.DecryptionUndoesEncryption : Prop :=
  ∀ (K : SubkeyStore) (B : Block),
    decryptBlock K (encryptBlock K B) = B ∧ encryptBlock K (decryptBlock K B) = B ∧
    ∀ n : Nat, n ≤ 16 →
      halvesAfter K .decrypt (startHalves (encryptBlock K B)) n =
        (halvesAfter K .encrypt (startHalves B) (16 - n)).swap

/-- Under any sixteen subkeys, each direction is a bijection on blocks; so one changed input bit always changes the
output. -/
def Obligations.EachDirectionIsABijection : Prop :=
  ∀ (K : SubkeyStore) (m : Mode), Function.Bijective fun B : Block => cryptBlock B K m

/-- The source's known-answer vector, both ways. -/
def Obligations.KnownAnswerVector : Prop :=
  encryptBlock (keySchedule 0x133457799BBCDFF1#64) 0x0123456789ABCDEF#64 = 0x85E813540F0AB405#64 ∧
  decryptBlock (keySchedule 0x133457799BBCDFF1#64) 0x85E813540F0AB405#64 = 0x0123456789ABCDEF#64

/-- Complementing the key and the block complements the result. -/
def Obligations.ComplementPassesThrough : Prop :=
  ∀ (X B : Block) (m : Mode), cryptBlock (~~~B) (keySchedule (~~~X)) m = ~~~(cryptBlock B (keySchedule X) m)

/-! ### Invariants -/

/-- Every step keeps R32's part about the sequencer, with the bounds of the counters. -/
def Obligations.StepKeepsControlInvariant : Prop :=
  ∀ s t : State, ControlInv s → step s = .next t →
    ControlInv t ∧ t.icnt.val ≤ 9 ∧ t.ocnt.val ≤ 8 ∧ t.rndctr.val ≤ 16 ∧ t.err.code ≠ 7#3

/-- Every step keeps: while `KEYVALID = 1` the subkey store is the schedule of one key, and while a schedule runs what
it has written so far is. -/
def Obligations.StepKeepsKeyInvariant : Prop :=
  ∀ s t : State, KeyInv s → step s = .next t → KeyInv t

/-- A block operation stays on its block. An accepted ENC or DEC that passes its checks starts on the block in `IBUF`, in
its mode; for every block `X`, a step that is no reset takes a state with `L` and `R` the halves of `X` after `RNDCTR`
rounds to one with the halves of the same `X` after one round more, under the same subkeys and mode, or, after the
sixteenth round, to an idle one whose `OBUF` is the bytes of `cryptBlock` of that `X`. -/
def Obligations.StepKeepsCipherInvariant : Prop :=
  (∀ (s t : State) (w : CmdWord) (rest : List HostEvent) (m : Mode), s.phase = .idle → s.inputs = .command w :: rest →
    (decode w = .enc ∧ m = .encrypt ∨ decode w = .dec ∧ m = .decrypt) → s.keyValid = true → s.icnt = 8 →
    step s = .next t →
    t.phase = .rnd ∧ t.rndctr = 0 ∧ t.mode = m ∧ t.k = s.k ∧ CipherInv (blockOfBytes s.ibuf) t) ∧
  (∀ (X : Block) (s t : State), s.phase = .rnd → CipherInv X s → rstPin s = false → step s = .next t →
    (s.rndctr.val ≤ 15 ∧ t.phase = .rnd ∧ t.rndctr.val = s.rndctr.val + 1 ∧ t.k = s.k ∧ t.mode = s.mode ∧
      CipherInv X t) ∨
    (s.rndctr.val = 16 ∧ t.phase = .idle ∧ t.ocnt = 8 ∧ t.obuf = bytesOfBlock (cryptBlock X s.k s.mode)))

/-- The three invariants hold after reset. -/
def Obligations.ResetMeetsTheInvariants : Prop :=
  ControlInv State.reset ∧ KeyInv State.reset ∧ ∀ X : Block, CipherInv X State.reset

/-- The cipher instance is immutable: while `KEYVALID = 1`, only a reset or the acceptance of a LOADKEY ends it or
changes a subkey. -/
def Obligations.SubkeysAreImmutable : Prop :=
  ∀ s t : State, ControlInv s → s.keyValid = true → step s = .next t → rstPin s = false →
    (∀ w rest, s.phase = .idle → s.inputs = .command w :: rest → decode w ≠ .loadkey) →
    t.keyValid = true ∧ t.k = s.k

/-- `OBUF` changes, and `OCNT` grows, only in the final micro-step of an ENC or DEC or in a reset. -/
def Obligations.OutputIsWrittenOnlyAtCompletion : Prop :=
  ∀ s t : State, step s = .next t → rstPin s = false → ¬ (s.phase = .rnd ∧ s.rndctr.val = 16) →
    t.obuf = s.obuf ∧ t.ocnt.val ≤ s.ocnt.val ∧
    (t.ocnt ≠ s.ocnt → ∃ w rest, s.phase = .idle ∧ s.inputs = .command w :: rest ∧ decode w = .pop)

/-- `ERR` is the response code of the last command that was not a NOP: a step that responds to another command writes
the code it responds, a NOP and a step that does not respond keep `ERR` (but for a reset, which clears it). -/
def Obligations.ErrIsTheLastResponseCode : Prop :=
  ∀ s t : State, step s = .next t → rstPin s = false →
    (t.rsp = none → t.err = s.err) ∧
    (∀ r, t.rsp = some r →
      t.err = r.err ∨
      (s.phase = .idle ∧ t.err = s.err ∧ ∃ w rest, s.inputs = .command w :: rest ∧ decode w = .nop)) ∧
    (∀ w rest, s.phase = .idle → s.inputs = .command w :: rest → decode w = .nop → t.err = s.err)

/-! ### The sequencer as a whole -/

/-- The transition table of the sequencer, and that no step is missing from it: from every state that meets the
invariant of R32 there is a next state, and `(PHASE, RNDCTR)` moves as the table says; with nothing to accept it stays
(the model's waiting step, assumption entry 6). -/
def Obligations.SequencerTransitions : Prop :=
  ∀ s : State, ControlInv s →
    ∃ t, step s = .next t ∧
      (rstPin s = true → t.phase = .idle ∧ t.rndctr = 0) ∧
      (rstPin s = false →
        (s.phase = .ks → t.rndctr.val = s.rndctr.val + 1 ∧ t.phase = if s.rndctr.val = 15 then .idle else .ks) ∧
        (s.phase = .rnd → s.rndctr.val ≤ 15 → t.rndctr.val = s.rndctr.val + 1 ∧ t.phase = .rnd) ∧
        (s.phase = .rnd → s.rndctr.val = 16 → t.rndctr = 16 ∧ t.phase = .idle) ∧
        (s.phase = .idle → (∀ w rest, s.inputs ≠ .command w :: rest) → t.phase = .idle ∧ t.rndctr = s.rndctr) ∧
        (∀ w rest, s.phase = .idle → s.inputs = .command w :: rest →
          (decode w = .loadkey ∧ s.icnt = 8 → t.phase = .ks ∧ t.rndctr = 0) ∧
          ((decode w = .enc ∨ decode w = .dec) ∧ s.keyValid = true ∧ s.icnt = 8 → t.phase = .rnd ∧ t.rndctr = 0) ∧
          (¬ (decode w = .loadkey ∧ s.icnt = 8) →
            ¬ ((decode w = .enc ∨ decode w = .dec) ∧ s.keyValid = true ∧ s.icnt = 8) →
            t.phase = .idle ∧ t.rndctr = s.rndctr)))

/-- A running operation always completes, in exactly the micro-steps it has left, unless a reset comes: the core is
busy until then and idle then. -/
def Obligations.RunningOperationCompletes : Prop :=
  ∀ s : State, ControlInv s → NoReset s →
    (∃ t, Host.Core.run Sys2Proof.core (microStepsLeft s) s = .next t ∧ t.phase = .idle) ∧
    ∀ n, n < microStepsLeft s → ∃ t, Host.Core.run Sys2Proof.core n s = .next t ∧ t.phase ≠ .idle

/-- The micro-step machine refines the command-level view: a presented command, run for the steps R262 counts, leaves
exactly the state that its one-step meaning gives, whatever commands wait behind it. -/
def Obligations.MicroStepsRefineTheCommand : Prop :=
  ∀ (s : State) (w : CmdWord) (rest : List HostEvent), s.phase = .idle → Presents s w rest →
    Host.Core.run Sys2Proof.core (commandSteps (decode w) s) s =
      .next (commandAtOnce (decode w) { s with inputs := rest, rsp := none })

/-- A whole list of command words: some number of steps of the machine leaves exactly the state that the one-step
meanings give, one after another. -/
def Obligations.CommandListsRunAtCommandLevel : Prop :=
  ∀ (ws : List CmdWord) (s : State), s.phase = .idle → s.inputs = ws.map HostEvent.command →
    ∃ n, Host.Core.run Sys2Proof.core n s = .next { runCommands ws s with inputs := [] }

/-- Every accepted command produces exactly one response, when it completes and not before; its data byte is 00 unless
the command is a POP that succeeds, and then it is the popped byte. -/
def Obligations.OneResponsePerCommand : Prop :=
  ∀ (s : State) (w : CmdWord) (rest : List HostEvent), s.phase = .idle → Presents s w rest →
    (∃ t r, Host.Core.run Sys2Proof.core (commandSteps (decode w) s) s = .next t ∧ t.phase = .idle ∧
      t.rspLog = s.rspLog ++ [r] ∧ t.rsp = some r ∧ (¬ (decode w = .pop ∧ r.err = .ok) → r.data = 0x00#8) ∧
      (decode w = .pop → ∀ h : s.ocnt.val ≠ 0, r = ⟨.ok, s.obuf[8 - s.ocnt.val]'(by omega)⟩)) ∧
    ∀ n, 0 < n → n < commandSteps (decode w) s →
      ∃ t, Host.Core.run Sys2Proof.core n s = .next t ∧ t.rspLog = s.rspLog ∧ t.rsp = none

/-- No command's control behaviour depends on a data value: two states that agree on the control registers and on the
kinds of their inputs take the same kind of step and agree again, so also in every `ERR`, response code and `STATUS`. -/
def Obligations.ControlIsIndependentOfData : Prop :=
  ∀ s t : State, SameControl s t →
    (∃ s' t', step s = .next s' ∧ step t = .next t' ∧ SameControl s' t' ∧ status s' = status t') ∨
    (∃ e, step s = .fault e ∧ step t = .fault e)

/-! ### The host's duties -/

/-- A key transaction: the eight bytes pushed into an empty buffer and LOADKEY leave the schedule of those bytes, a
valid key and nine `(0, 00)` responses. -/
def Obligations.KeyTransactionLoadsTheSchedule : Prop :=
  ∀ (s : State) (b : Bytes8), s.icnt = 0 →
    (runCommands (wordsOf (.key b.toList)) s).keyValid = true ∧
    (runCommands (wordsOf (.key b.toList)) s).k = keySchedule (blockOfBytes b) ∧
    (runCommands (wordsOf (.key b.toList)) s).rspLog = s.rspLog ++ List.replicate 9 ⟨.ok, 0x00#8⟩

/-- A block transaction: with a key and an empty input buffer, eight PUSHes, ENC or DEC and eight POPs return nine
`(0, 00)` responses and then the bytes of the transformed block in order. The host that drives the machine step by step
and reads the responses takes those eight bytes as the output block, and leaves the core idle, its key and an empty input
buffer in it; where ENC or DEC faults it ends with that fault after nine responses, no POP issued, `OBUF` and `OCNT` as
they were (that the host then stops is the model's choice, assumption entry 21). -/
def Obligations.BlockTransactionReturnsTheBlock : Prop :=
  (∀ (s : State) (m : Mode) (b : Bytes8), s.icnt = 0 → s.keyValid = true →
    (runCommands (blockTransaction m b) s).rspLog =
      s.rspLog ++ List.replicate 9 ⟨.ok, 0x00#8⟩ ++
        (bytesOfBlock (cryptBlock (blockOfBytes b) s.k m)).toList.map (fun x => ⟨.ok, x⟩)) ∧
  (∀ (s : State) (m : Mode) (b : Bytes8), s.phase = .idle → s.icnt = 0 → s.keyValid = true →
    ∃ t, driveBlock m b s = (t, .ok (bytesOfBlock (cryptBlock (blockOfBytes b) s.k m)).toList) ∧
      t.phase = .idle ∧ t.keyValid = true ∧ t.k = s.k ∧ t.icnt = 0 ∧ t.ocnt = 0) ∧
  (∀ (s : State) (m : Mode) (b : Bytes8), s.phase = .idle → s.keyValid = false ∨ s.icnt ≠ 0 →
    ∃ t rs, driveBlock m b s = (t, .error (if s.keyValid = false then .coreFault .noKeyFault
        else if m = .encrypt then .coreFault .blockLengthFault else .invalidInputError)) ∧
      t.rspLog = s.rspLog ++ rs ∧ rs.length = 9 ∧ t.obuf = s.obuf ∧ t.ocnt = s.ocnt ∧ t.phase = .idle)

/-- A whole message under one key: LOADKEY once, then a transaction for each block, return the bytes of the transformed
blocks in block order, and no fault. The host that drives the machine step by step, LOADKEY once and then its encrypt or
decrypt call, gets what the pure functions `encrypt` and `decrypt` give under the schedule of that key. -/
def Obligations.MessageTransactionReturnsEveryBlock : Prop :=
  (∀ (s : State) (m : Mode) (key : Bytes8) (blocks : List Bytes8), s.icnt = 0 →
    (runCommands (messageTransaction m key blocks) s).rspLog =
      s.rspLog ++ List.replicate 9 ⟨.ok, 0x00#8⟩ ++
        blocks.flatMap fun b => List.replicate 9 ⟨.ok, 0x00#8⟩ ++
          (bytesOfBlock (cryptBlock (blockOfBytes b) (keySchedule (blockOfBytes key)) m)).toList.map fun x => ⟨.ok, x⟩) ∧
  (∀ (s : State) (cfg : HostConfig) (key : Bytes8) (M : List Byte), s.phase = .idle → s.icnt = 0 →
    (driveWithKey key.toList (driveEncrypt cfg M) s).2 =
      .ok (hostEncrypt cfg (keySchedule (blockOfBytes key)) M)) ∧
  (∀ (s : State) (cfg : HostConfig) (key : Bytes8) (Cx : List Byte), s.phase = .idle → s.icnt = 0 →
    (driveWithKey key.toList (driveDecrypt cfg Cx) s).2 = hostDecrypt cfg (keySchedule (blockOfBytes key)) Cx)

/-- Padding: `n = 8 - (len mod 8)` bytes, each of value `n`, so between 1 and 8; the padded length is a multiple of 8.
With `PAD_FULL_BLOCK = false` a message of whole blocks gets no byte. -/
def Obligations.PaddingAppendsOneToEightBytes : Prop :=
  (∀ M : List Byte, ∃ n : Nat, n = 8 - M.length % 8 ∧ 1 ≤ n ∧ n ≤ 8 ∧
    pad HostConfig.default M = M ++ List.replicate n (BitVec.ofNat 8 n) ∧ (pad HostConfig.default M).length % 8 = 0 ∧
    (M.length % 8 = 0 → pad HostConfig.default M = M ++ List.replicate 8 0x08#8)) ∧
  (∀ (stripMax : Fin 9) (M : List Byte),
    pad { padFullBlock := false, padStripMax := stripMax } M =
      if M.length % 8 = 0 then M else pad HostConfig.default M)

/-- The length of the ciphertext. -/
def Obligations.CiphertextLength : Prop :=
  ∀ (K : SubkeyStore) (M : List Byte),
    (hostEncrypt HostConfig.default K M).length = 8 * (M.length / 8 + 1) ∧
    M.length < (hostEncrypt HostConfig.default K M).length

/-- `decrypt` fails with InvalidInputError exactly on lengths that are no positive multiple of 8; and the host that drives
the core then leaves it as it was: no word of any block is presented and no step is taken. -/
def Obligations.DecryptRefusesBrokenLengths : Prop :=
  (∀ (cfg : HostConfig) (K : SubkeyStore) (Cx : List Byte),
    hostDecrypt cfg K Cx = .error .invalidInputError ↔ (Cx.length = 0 ∨ Cx.length % 8 ≠ 0)) ∧
  (∀ (cfg : HostConfig) (Cx : List Byte) (s : State), Cx.length = 0 ∨ Cx.length % 8 ≠ 0 →
    driveDecrypt cfg Cx s = (s, .error .invalidInputError))

/-- Construction of a cipher instance: exactly eight key bytes give the key schedule, any other length InvalidKeyError; so
also where the host pushes the whole key buffer into an idle core with an empty input buffer and lets LOADKEY decide. -/
def Obligations.ConstructTakesExactlyEightBytes : Prop :=
  (∀ b : Bytes8, construct b.toList = .ok (keySchedule (blockOfBytes b))) ∧
  (∀ key : List Byte, key.length ≠ 8 → construct key = .error .invalidKeyError) ∧
  (∀ (s : State) (b : Bytes8), s.phase = .idle → s.icnt = 0 →
    ∃ t, driveKey b.toList s = (t, .ok ()) ∧ t.phase = .idle ∧ t.keyValid = true ∧ t.icnt = 0 ∧
      t.k = keySchedule (blockOfBytes b)) ∧
  (∀ (s : State) (key : List Byte), s.phase = .idle → s.icnt = 0 → key.length ≠ 8 →
    ∃ t, driveKey key s = (t, .error .invalidKeyError) ∧ t.phase = .idle ∧ t.keyValid = false ∧ t.icnt = 0)

/-- What pad and strip do together: with the default parameters a message whose length is no multiple of 8 comes back,
and one of whole blocks comes back with eight bytes 08 behind it; with `PAD_STRIP_MAX = 8` every message comes back. -/
def Obligations.MessageRoundTrip : Prop :=
  ∀ (K : SubkeyStore) (M : List Byte),
    (M.length % 8 ≠ 0 →
      hostDecrypt HostConfig.default K (hostEncrypt HostConfig.default K M) = .ok M) ∧
    (M.length % 8 = 0 →
      hostDecrypt HostConfig.default K (hostEncrypt HostConfig.default K M) = .ok (M ++ List.replicate 8 0x08#8)) ∧
    hostDecrypt { padFullBlock := true, padStripMax := 8 } K
      (hostEncrypt { padFullBlock := true, padStripMax := 8 } K M) = .ok M

/-- Blocks are transformed independently and put together in order. -/
def Obligations.BlocksAreIndependent : Prop :=
  ∀ (F : Block → Block) (A B : List Byte), A.length % 8 = 0 → mapBlocks F (A ++ B) = mapBlocks F A ++ mapBlocks F B
end

