-- ==== Sys2Proof/Laws/Codec.lean ====
section
/-! SUPPORT. What the bit-sequence functions do, position by position: the lemmas that proofs cite instead of unfolding
`num`, `ofSeq`, `slice` and `permute`. -/

namespace Sys2Proof.Machine

@[simp] theorem num_nil : num [] = 0 := rfl

/-- `num` reads the last element as the least significant bit. -/
theorem num_concat (s : List Bool) (b : Bool) : num (s ++ [b]) = 2 * num s + b.toNat := by
  simp only [num, List.foldl_append, List.foldl_cons, List.foldl_nil]

theorem num_lt (s : List Bool) : num s < 2 ^ s.length := by
  induction s using List.reverseRecOn with
  | nil => simp
  | append_singleton s b ih =>
    have hb := Bool.toNat_lt b
    rw [num_concat, List.length_append, List.length_singleton, Nat.pow_succ]
    omega

/-- Bit `j` of `num s` from the low end is element `length - 1 - j`. -/
theorem testBit_num (s : List Bool) (j : Nat) (hj : j < s.length) :
    (num s).testBit j = s[s.length - 1 - j] := by
  induction s using List.reverseRecOn generalizing j with
  | nil => simp at hj
  | append_singleton s b ih =>
    rw [num_concat]
    cases j with
    | zero =>
      rw [Nat.testBit_zero]
      cases b <;> simp
    | succ j =>
      have hlen : j < s.length := by
        rw [List.length_append, List.length_singleton] at hj
        omega
      rw [Nat.testBit_succ]
      have hdiv : (2 * num s + b.toNat) / 2 = num s := by
        have hb := Bool.toNat_lt b
        omega
      rw [hdiv, ih j hlen]
      have hidx : (s ++ [b]).length - 1 - (j + 1) = s.length - 1 - j := by
        rw [List.length_append, List.length_singleton]
        omega
      simp only [hidx]
      rw [List.getElem_append_left]

/-- Position `i + 1` of the register that holds `s` is element `i` of `s`. -/
theorem getMsbD_ofSeq (n : Nat) (s : List Bool) (hs : s.length = n) (i : Nat) (hi : i < n) :
    (ofSeq n s).getMsbD i = s[i] := by
  subst hs
  have hlt := num_lt s
  simp only [ofSeq, BitVec.getMsbD, BitVec.getLsbD_ofNat, hi, decide_true, Bool.true_and]
  rw [testBit_num s _ (by omega)]
  have hidx : s.length - 1 - (s.length - 1 - i) = i := by omega
  simp only [hidx]
  simp only [Bool.and_eq_right_iff_imp, decide_eq_true_eq]
  intro _
  omega

@[simp] theorem length_toSeq {n : Nat} (s : BitVec n) : (toSeq s).length = n := by
  simp only [toSeq, List.length_map, List.length_range]

theorem getElem_toSeq {n : Nat} (s : BitVec n) (i : Nat) (hi : i < (toSeq s).length) :
    (toSeq s)[i] = s.getMsbD i := by
  simp only [toSeq, List.getElem_map, List.getElem_range, pos, Nat.add_sub_cancel]

/-- `out{i} = bits{T{i}}` (spec/41_permutation.md R110), counted from 0. -/
theorem getMsbD_permute {n m : Nat} (bits : BitVec n) (T : PermTable n m) (i : Fin m) :
    (permute bits T).getMsbD i.val = bits.getMsbD (T.entry i - 1) := by
  have hlen : (T.entries.map fun e => pos bits e).length = m := by
    rw [List.length_map, T.length_entries]
  rw [permute, getMsbD_ofSeq m _ hlen i.val i.isLt, List.getElem_map]
  rfl

/-- Every entry of a table is in range (spec/41_permutation.md R112). -/
theorem PermTable.entry_range {n m : Nat} (T : PermTable n m) (i : Fin m) : 1 ≤ T.entry i ∧ T.entry i ≤ n := by
  have h := T.ok
  simp only [permTableOk, Bool.and_eq_true, List.all_eq_true, decide_eq_true_eq] at h
  exact h.2 _ (List.getElem_mem _)

/-- A slice, position by position (spec/00_scope.md R5), for a slice that lies inside. -/
theorem getMsbD_slice {n : Nat} (s : BitVec n) (lo len i : Nat) (hlo : 1 ≤ lo) (hin : lo + len ≤ n + 1)
    (hi : i < len) : (slice s lo len).getMsbD i = s.getMsbD (lo - 1 + i) := by
  simp only [slice, BitVec.getMsbD_extractLsb']
  have h1 : n + 1 - lo - len + len - i ≤ n := by omega
  have h2 : n - (n + 1 - lo - len + len - i) = lo - 1 + i := by omega
  simp only [hi, h1, h2, decide_true, Bool.true_and]

/-- The `t`-th element of a concatenation of pieces of eight. -/
theorem getElem_flatMap_toSeq (l : List Byte) (j k : Nat) (hj : j < l.length) (hk : k < 8)
    (h : 8 * j + k < (l.flatMap toSeq).length) : (l.flatMap toSeq)[8 * j + k] = l[j].getMsbD k := by
  induction l generalizing j with
  | nil => simp at hj
  | cons b l ih =>
    simp only [List.flatMap_cons]
    cases j with
    | zero =>
      rw [List.getElem_append_left (by rw [length_toSeq]; omega)]
      simp only [Nat.mul_zero, Nat.zero_add, getElem_toSeq, List.getElem_cons_zero]
    | succ j =>
      rw [List.getElem_append_right (by rw [length_toSeq]; omega)]
      have hidx : 8 * (j + 1) + k - (toSeq b).length = 8 * j + k := by
        rw [length_toSeq]
        omega
      simp only [hidx, List.getElem_cons_succ]
      exact ih j (by simpa using hj) _

/-- Position `8j + k + 1` of `bytesToBits b` is bit `k + 1` of byte `j` (spec/40_bitcodec.md R90). -/
theorem getMsbD_bytesToBits {m : Nat} (b : Vector Byte m) (j k : Nat) (hj : j < m) (hk : k < 8) :
    (bytesToBits b).getMsbD (8 * j + k) = b[j].getMsbD k := by
  have hlen : (b.toList.flatMap toSeq).length = 8 * m := by
    simp only [List.length_flatMap, length_toSeq, List.map_const', List.sum_replicate, Vector.length_toList,
      smul_eq_mul]
    omega
  rw [bytesToBits, getMsbD_ofSeq _ _ hlen _ (by omega),
    getElem_flatMap_toSeq _ j k (by rw [Vector.length_toList]; exact hj) hk, Vector.getElem_toList]

/-- Byte `j` of `bitsToBytes s` (spec/40_bitcodec.md R91). -/
theorem getElem_bitsToBytes {m : Nat} (s : BitVec (8 * m)) (j : Nat) (hj : j < m) :
    (bitsToBytes s)[j] = slice s (8 * j + 1) 8 := by
  rw [bitsToBytes, Vector.getElem_ofFn]

/-- Two sequences are equal where every position is. -/
theorem eq_of_positions {n : Nat} (a b : BitVec n) (h : ∀ i : Fin n, a.getMsbD i.val = b.getMsbD i.val) : a = b :=
  BitVec.eq_of_getMsbD_eq fun i hi => h ⟨i, hi⟩

/-- `rotl`, position by position (spec/00_scope.md section 5.2). -/
theorem getMsbD_rotl {n : Nat} (s : BitVec n) (k i : Nat) (hi : i < n) :
    (rotl s k).getMsbD i = s.getMsbD ((k + i) % n) := by
  simp only [rotl, BitVec.getMsbD_rotateLeft, hi, decide_true, Bool.true_and]

@[simp] theorem halfAfter_zero (h : HalfKey) : halfAfter h 0 = h := rfl

theorem halfAfter_succ (h : HalfKey) (i : Nat) : halfAfter h (i + 1) = rotl (halfAfter h i) (shiftAmount (i + 1)) := rfl

/-- `K[i]` of the schedule is `subkey_i` (spec/42_keyschedule.md R131). -/
theorem getElem_keySchedule (X : Block) (i : Fin 16) : (keySchedule X)[i.val] = subkeyAt X (i.val + 1) := by
  rw [keySchedule, Vector.getElem_ofFn]

@[simp] theorem halvesAfter_zero (K : SubkeyStore) (m : Mode) (LR : Half × Half) : halvesAfter K m LR 0 = LR := rfl

theorem take_succ_roundOrder (i : Fin 16) : roundOrder.take (i.val + 1) = roundOrder.take i.val ++ [i] := by
  revert i; decide

/-- One more round (spec/44_blockcipher.md R171). -/
theorem halvesAfter_succ (K : SubkeyStore) (m : Mode) (LR : Half × Half) (i : Fin 16) :
    halvesAfter K m LR (i.val + 1) = round (halvesAfter K m LR i.val) (roundKey K m i) := by
  rw [halvesAfter, take_succ_roundOrder, List.foldl_append]
  rfl

end Sys2Proof.Machine
end

