-- ==== Sys2Proof/Laws/State.lean ====
section
/-! SUPPORT. One lemma per field for each operation that makes a new state, so that later proofs need not unfold one. -/

namespace Sys2Proof.Machine

@[simp] theorem respond_ibuf (code : RspCode) (data : Byte) (s : State) : (respond code data s).ibuf = s.ibuf := rfl
@[simp] theorem respond_obuf (code : RspCode) (data : Byte) (s : State) : (respond code data s).obuf = s.obuf := rfl
@[simp] theorem respond_k (code : RspCode) (data : Byte) (s : State) : (respond code data s).k = s.k := rfl
@[simp] theorem respond_c (code : RspCode) (data : Byte) (s : State) : (respond code data s).c = s.c := rfl
@[simp] theorem respond_d (code : RspCode) (data : Byte) (s : State) : (respond code data s).d = s.d := rfl
@[simp] theorem respond_l (code : RspCode) (data : Byte) (s : State) : (respond code data s).l = s.l := rfl
@[simp] theorem respond_r (code : RspCode) (data : Byte) (s : State) : (respond code data s).r = s.r := rfl
@[simp] theorem respond_icnt (code : RspCode) (data : Byte) (s : State) : (respond code data s).icnt = s.icnt := rfl
@[simp] theorem respond_ocnt (code : RspCode) (data : Byte) (s : State) : (respond code data s).ocnt = s.ocnt := rfl
@[simp] theorem respond_keyValid (code : RspCode) (data : Byte) (s : State) : (respond code data s).keyValid = s.keyValid := rfl
@[simp] theorem respond_mode (code : RspCode) (data : Byte) (s : State) : (respond code data s).mode = s.mode := rfl
@[simp] theorem respond_phase (code : RspCode) (data : Byte) (s : State) : (respond code data s).phase = s.phase := rfl
@[simp] theorem respond_rndctr (code : RspCode) (data : Byte) (s : State) : (respond code data s).rndctr = s.rndctr := rfl
@[simp] theorem respond_err (code : RspCode) (data : Byte) (s : State) : (respond code data s).err = s.err := rfl
@[simp] theorem respond_rsp (code : RspCode) (data : Byte) (s : State) : (respond code data s).rsp = some ⟨code, data⟩ := rfl
@[simp] theorem respond_inputs (code : RspCode) (data : Byte) (s : State) : (respond code data s).inputs = s.inputs := rfl
@[simp] theorem respond_rspLog (code : RspCode) (data : Byte) (s : State) : (respond code data s).rspLog = s.rspLog ++ [⟨code, data⟩] := rfl
@[simp] theorem respond_draws (code : RspCode) (data : Byte) (s : State) : (respond code data s).draws = s.draws := rfl

@[simp] theorem succeed_ibuf (data : Byte) (s : State) : (succeed data s).ibuf = s.ibuf := rfl
@[simp] theorem succeed_obuf (data : Byte) (s : State) : (succeed data s).obuf = s.obuf := rfl
@[simp] theorem succeed_k (data : Byte) (s : State) : (succeed data s).k = s.k := rfl
@[simp] theorem succeed_c (data : Byte) (s : State) : (succeed data s).c = s.c := rfl
@[simp] theorem succeed_d (data : Byte) (s : State) : (succeed data s).d = s.d := rfl
@[simp] theorem succeed_l (data : Byte) (s : State) : (succeed data s).l = s.l := rfl
@[simp] theorem succeed_r (data : Byte) (s : State) : (succeed data s).r = s.r := rfl
@[simp] theorem succeed_icnt (data : Byte) (s : State) : (succeed data s).icnt = s.icnt := rfl
@[simp] theorem succeed_ocnt (data : Byte) (s : State) : (succeed data s).ocnt = s.ocnt := rfl
@[simp] theorem succeed_keyValid (data : Byte) (s : State) : (succeed data s).keyValid = s.keyValid := rfl
@[simp] theorem succeed_mode (data : Byte) (s : State) : (succeed data s).mode = s.mode := rfl
@[simp] theorem succeed_phase (data : Byte) (s : State) : (succeed data s).phase = s.phase := rfl
@[simp] theorem succeed_rndctr (data : Byte) (s : State) : (succeed data s).rndctr = s.rndctr := rfl
@[simp] theorem succeed_err (data : Byte) (s : State) : (succeed data s).err = .ok := rfl
@[simp] theorem succeed_rsp (data : Byte) (s : State) : (succeed data s).rsp = some ⟨.ok, data⟩ := rfl
@[simp] theorem succeed_inputs (data : Byte) (s : State) : (succeed data s).inputs = s.inputs := rfl
@[simp] theorem succeed_rspLog (data : Byte) (s : State) : (succeed data s).rspLog = s.rspLog ++ [⟨.ok, data⟩] := rfl
@[simp] theorem succeed_draws (data : Byte) (s : State) : (succeed data s).draws = s.draws := rfl

@[simp] theorem dropKey_ibuf (s : State) : (dropKey s).ibuf = s.ibuf := rfl
@[simp] theorem dropKey_obuf (s : State) : (dropKey s).obuf = s.obuf := rfl
@[simp] theorem dropKey_k (s : State) : (dropKey s).k = Config.unspecifiedK s.draws := rfl
@[simp] theorem dropKey_c (s : State) : (dropKey s).c = s.c := rfl
@[simp] theorem dropKey_d (s : State) : (dropKey s).d = s.d := rfl
@[simp] theorem dropKey_l (s : State) : (dropKey s).l = s.l := rfl
@[simp] theorem dropKey_r (s : State) : (dropKey s).r = s.r := rfl
@[simp] theorem dropKey_icnt (s : State) : (dropKey s).icnt = s.icnt := rfl
@[simp] theorem dropKey_ocnt (s : State) : (dropKey s).ocnt = s.ocnt := rfl
@[simp] theorem dropKey_keyValid (s : State) : (dropKey s).keyValid = false := rfl
@[simp] theorem dropKey_mode (s : State) : (dropKey s).mode = s.mode := rfl
@[simp] theorem dropKey_phase (s : State) : (dropKey s).phase = s.phase := rfl
@[simp] theorem dropKey_rndctr (s : State) : (dropKey s).rndctr = s.rndctr := rfl
@[simp] theorem dropKey_err (s : State) : (dropKey s).err = s.err := rfl
@[simp] theorem dropKey_rsp (s : State) : (dropKey s).rsp = s.rsp := rfl
@[simp] theorem dropKey_inputs (s : State) : (dropKey s).inputs = s.inputs := rfl
@[simp] theorem dropKey_rspLog (s : State) : (dropKey s).rspLog = s.rspLog := rfl
@[simp] theorem dropKey_draws (s : State) : (dropKey s).draws = s.draws + 1 := rfl

@[simp] theorem consumeOutput_ibuf (s : State) : (consumeOutput s).ibuf = s.ibuf := rfl
@[simp] theorem consumeOutput_obuf (s : State) : (consumeOutput s).obuf = s.obuf := rfl
@[simp] theorem consumeOutput_k (s : State) : (consumeOutput s).k = s.k := rfl
@[simp] theorem consumeOutput_c (s : State) : (consumeOutput s).c = s.c := rfl
@[simp] theorem consumeOutput_d (s : State) : (consumeOutput s).d = s.d := rfl
@[simp] theorem consumeOutput_l (s : State) : (consumeOutput s).l = s.l := rfl
@[simp] theorem consumeOutput_r (s : State) : (consumeOutput s).r = s.r := rfl
@[simp] theorem consumeOutput_icnt (s : State) : (consumeOutput s).icnt = s.icnt := rfl
@[simp] theorem consumeOutput_ocnt (s : State) : (consumeOutput s).ocnt = ⟨s.ocnt.val - 1, by omega⟩ := rfl
@[simp] theorem consumeOutput_keyValid (s : State) : (consumeOutput s).keyValid = s.keyValid := rfl
@[simp] theorem consumeOutput_mode (s : State) : (consumeOutput s).mode = s.mode := rfl
@[simp] theorem consumeOutput_phase (s : State) : (consumeOutput s).phase = s.phase := rfl
@[simp] theorem consumeOutput_rndctr (s : State) : (consumeOutput s).rndctr = s.rndctr := rfl
@[simp] theorem consumeOutput_err (s : State) : (consumeOutput s).err = s.err := rfl
@[simp] theorem consumeOutput_rsp (s : State) : (consumeOutput s).rsp = s.rsp := rfl
@[simp] theorem consumeOutput_inputs (s : State) : (consumeOutput s).inputs = s.inputs := rfl
@[simp] theorem consumeOutput_rspLog (s : State) : (consumeOutput s).rspLog = s.rspLog := rfl
@[simp] theorem consumeOutput_draws (s : State) : (consumeOutput s).draws = s.draws := rfl

@[simp] theorem storeOutput_ibuf (Y : Block) (s : State) : (storeOutput Y s).ibuf = s.ibuf := rfl
@[simp] theorem storeOutput_obuf (Y : Block) (s : State) : (storeOutput Y s).obuf = bytesOfBlock Y := rfl
@[simp] theorem storeOutput_k (Y : Block) (s : State) : (storeOutput Y s).k = s.k := rfl
@[simp] theorem storeOutput_c (Y : Block) (s : State) : (storeOutput Y s).c = s.c := rfl
@[simp] theorem storeOutput_d (Y : Block) (s : State) : (storeOutput Y s).d = s.d := rfl
@[simp] theorem storeOutput_l (Y : Block) (s : State) : (storeOutput Y s).l = s.l := rfl
@[simp] theorem storeOutput_r (Y : Block) (s : State) : (storeOutput Y s).r = s.r := rfl
@[simp] theorem storeOutput_icnt (Y : Block) (s : State) : (storeOutput Y s).icnt = s.icnt := rfl
@[simp] theorem storeOutput_ocnt (Y : Block) (s : State) : (storeOutput Y s).ocnt = 8 := rfl
@[simp] theorem storeOutput_keyValid (Y : Block) (s : State) : (storeOutput Y s).keyValid = s.keyValid := rfl
@[simp] theorem storeOutput_mode (Y : Block) (s : State) : (storeOutput Y s).mode = s.mode := rfl
@[simp] theorem storeOutput_phase (Y : Block) (s : State) : (storeOutput Y s).phase = s.phase := rfl
@[simp] theorem storeOutput_rndctr (Y : Block) (s : State) : (storeOutput Y s).rndctr = s.rndctr := rfl
@[simp] theorem storeOutput_err (Y : Block) (s : State) : (storeOutput Y s).err = s.err := rfl
@[simp] theorem storeOutput_rsp (Y : Block) (s : State) : (storeOutput Y s).rsp = s.rsp := rfl
@[simp] theorem storeOutput_inputs (Y : Block) (s : State) : (storeOutput Y s).inputs = s.inputs := rfl
@[simp] theorem storeOutput_rspLog (Y : Block) (s : State) : (storeOutput Y s).rspLog = s.rspLog := rfl
@[simp] theorem storeOutput_draws (Y : Block) (s : State) : (storeOutput Y s).draws = s.draws := rfl

@[simp] theorem startKeySchedule_ibuf (s : State) : (startKeySchedule s).ibuf = s.ibuf := rfl
@[simp] theorem startKeySchedule_obuf (s : State) : (startKeySchedule s).obuf = s.obuf := rfl
@[simp] theorem startKeySchedule_k (s : State) : (startKeySchedule s).k = Config.unspecifiedK s.draws := rfl
@[simp] theorem startKeySchedule_c (s : State) : (startKeySchedule s).c = keyC0 (inputBlock s) := rfl
@[simp] theorem startKeySchedule_d (s : State) : (startKeySchedule s).d = keyD0 (inputBlock s) := rfl
@[simp] theorem startKeySchedule_l (s : State) : (startKeySchedule s).l = s.l := rfl
@[simp] theorem startKeySchedule_r (s : State) : (startKeySchedule s).r = s.r := rfl
@[simp] theorem startKeySchedule_icnt (s : State) : (startKeySchedule s).icnt = 0 := rfl
@[simp] theorem startKeySchedule_ocnt (s : State) : (startKeySchedule s).ocnt = s.ocnt := rfl
@[simp] theorem startKeySchedule_keyValid (s : State) : (startKeySchedule s).keyValid = false := rfl
@[simp] theorem startKeySchedule_mode (s : State) : (startKeySchedule s).mode = s.mode := rfl
@[simp] theorem startKeySchedule_phase (s : State) : (startKeySchedule s).phase = .ks := rfl
@[simp] theorem startKeySchedule_rndctr (s : State) : (startKeySchedule s).rndctr = 0 := rfl
@[simp] theorem startKeySchedule_err (s : State) : (startKeySchedule s).err = s.err := rfl
@[simp] theorem startKeySchedule_rsp (s : State) : (startKeySchedule s).rsp = s.rsp := rfl
@[simp] theorem startKeySchedule_inputs (s : State) : (startKeySchedule s).inputs = s.inputs := rfl
@[simp] theorem startKeySchedule_rspLog (s : State) : (startKeySchedule s).rspLog = s.rspLog := rfl
@[simp] theorem startKeySchedule_draws (s : State) : (startKeySchedule s).draws = s.draws + 1 := rfl

@[simp] theorem keyRound_ibuf (i : Fin 16) (s : State) : (keyRound i s).ibuf = s.ibuf := rfl
@[simp] theorem keyRound_obuf (i : Fin 16) (s : State) : (keyRound i s).obuf = s.obuf := rfl
@[simp] theorem keyRound_k (i : Fin 16) (s : State) : (keyRound i s).k = s.k.set i.val (subkeyOf (rotl s.c (shiftAmount (i.val + 1))) (rotl s.d (shiftAmount (i.val + 1)))) := rfl
@[simp] theorem keyRound_c (i : Fin 16) (s : State) : (keyRound i s).c = rotl s.c (shiftAmount (i.val + 1)) := rfl
@[simp] theorem keyRound_d (i : Fin 16) (s : State) : (keyRound i s).d = rotl s.d (shiftAmount (i.val + 1)) := rfl
@[simp] theorem keyRound_l (i : Fin 16) (s : State) : (keyRound i s).l = s.l := rfl
@[simp] theorem keyRound_r (i : Fin 16) (s : State) : (keyRound i s).r = s.r := rfl
@[simp] theorem keyRound_icnt (i : Fin 16) (s : State) : (keyRound i s).icnt = s.icnt := rfl
@[simp] theorem keyRound_ocnt (i : Fin 16) (s : State) : (keyRound i s).ocnt = s.ocnt := rfl
@[simp] theorem keyRound_keyValid (i : Fin 16) (s : State) : (keyRound i s).keyValid = s.keyValid := rfl
@[simp] theorem keyRound_mode (i : Fin 16) (s : State) : (keyRound i s).mode = s.mode := rfl
@[simp] theorem keyRound_phase (i : Fin 16) (s : State) : (keyRound i s).phase = s.phase := rfl
@[simp] theorem keyRound_rndctr (i : Fin 16) (s : State) : (keyRound i s).rndctr = i.succ := rfl
@[simp] theorem keyRound_err (i : Fin 16) (s : State) : (keyRound i s).err = s.err := rfl
@[simp] theorem keyRound_rsp (i : Fin 16) (s : State) : (keyRound i s).rsp = s.rsp := rfl
@[simp] theorem keyRound_inputs (i : Fin 16) (s : State) : (keyRound i s).inputs = s.inputs := rfl
@[simp] theorem keyRound_rspLog (i : Fin 16) (s : State) : (keyRound i s).rspLog = s.rspLog := rfl
@[simp] theorem keyRound_draws (i : Fin 16) (s : State) : (keyRound i s).draws = s.draws := rfl

@[simp] theorem startCipher_ibuf (m : Mode) (s : State) : (startCipher m s).ibuf = s.ibuf := rfl
@[simp] theorem startCipher_obuf (m : Mode) (s : State) : (startCipher m s).obuf = s.obuf := rfl
@[simp] theorem startCipher_k (m : Mode) (s : State) : (startCipher m s).k = s.k := rfl
@[simp] theorem startCipher_c (m : Mode) (s : State) : (startCipher m s).c = s.c := rfl
@[simp] theorem startCipher_d (m : Mode) (s : State) : (startCipher m s).d = s.d := rfl
@[simp] theorem startCipher_l (m : Mode) (s : State) : (startCipher m s).l = (startHalves (inputBlock s)).1 := rfl
@[simp] theorem startCipher_r (m : Mode) (s : State) : (startCipher m s).r = (startHalves (inputBlock s)).2 := rfl
@[simp] theorem startCipher_icnt (m : Mode) (s : State) : (startCipher m s).icnt = 0 := rfl
@[simp] theorem startCipher_ocnt (m : Mode) (s : State) : (startCipher m s).ocnt = s.ocnt := rfl
@[simp] theorem startCipher_keyValid (m : Mode) (s : State) : (startCipher m s).keyValid = s.keyValid := rfl
@[simp] theorem startCipher_mode (m : Mode) (s : State) : (startCipher m s).mode = m := rfl
@[simp] theorem startCipher_phase (m : Mode) (s : State) : (startCipher m s).phase = .rnd := rfl
@[simp] theorem startCipher_rndctr (m : Mode) (s : State) : (startCipher m s).rndctr = 0 := rfl
@[simp] theorem startCipher_err (m : Mode) (s : State) : (startCipher m s).err = s.err := rfl
@[simp] theorem startCipher_rsp (m : Mode) (s : State) : (startCipher m s).rsp = s.rsp := rfl
@[simp] theorem startCipher_inputs (m : Mode) (s : State) : (startCipher m s).inputs = s.inputs := rfl
@[simp] theorem startCipher_rspLog (m : Mode) (s : State) : (startCipher m s).rspLog = s.rspLog := rfl
@[simp] theorem startCipher_draws (m : Mode) (s : State) : (startCipher m s).draws = s.draws := rfl

@[simp] theorem roundMicroStep_ibuf (i : Fin 16) (s : State) : (roundMicroStep i s).ibuf = s.ibuf := rfl
@[simp] theorem roundMicroStep_obuf (i : Fin 16) (s : State) : (roundMicroStep i s).obuf = s.obuf := rfl
@[simp] theorem roundMicroStep_k (i : Fin 16) (s : State) : (roundMicroStep i s).k = s.k := rfl
@[simp] theorem roundMicroStep_c (i : Fin 16) (s : State) : (roundMicroStep i s).c = s.c := rfl
@[simp] theorem roundMicroStep_d (i : Fin 16) (s : State) : (roundMicroStep i s).d = s.d := rfl
@[simp] theorem roundMicroStep_l (i : Fin 16) (s : State) : (roundMicroStep i s).l = s.r := rfl
@[simp] theorem roundMicroStep_r (i : Fin 16) (s : State) : (roundMicroStep i s).r = s.l ^^^ feistel s.r (roundKey s.k s.mode i) := rfl
@[simp] theorem roundMicroStep_icnt (i : Fin 16) (s : State) : (roundMicroStep i s).icnt = s.icnt := rfl
@[simp] theorem roundMicroStep_ocnt (i : Fin 16) (s : State) : (roundMicroStep i s).ocnt = s.ocnt := rfl
@[simp] theorem roundMicroStep_keyValid (i : Fin 16) (s : State) : (roundMicroStep i s).keyValid = s.keyValid := rfl
@[simp] theorem roundMicroStep_mode (i : Fin 16) (s : State) : (roundMicroStep i s).mode = s.mode := rfl
@[simp] theorem roundMicroStep_phase (i : Fin 16) (s : State) : (roundMicroStep i s).phase = s.phase := rfl
@[simp] theorem roundMicroStep_rndctr (i : Fin 16) (s : State) : (roundMicroStep i s).rndctr = i.succ := rfl
@[simp] theorem roundMicroStep_err (i : Fin 16) (s : State) : (roundMicroStep i s).err = s.err := rfl
@[simp] theorem roundMicroStep_rsp (i : Fin 16) (s : State) : (roundMicroStep i s).rsp = s.rsp := rfl
@[simp] theorem roundMicroStep_inputs (i : Fin 16) (s : State) : (roundMicroStep i s).inputs = s.inputs := rfl
@[simp] theorem roundMicroStep_rspLog (i : Fin 16) (s : State) : (roundMicroStep i s).rspLog = s.rspLog := rfl
@[simp] theorem roundMicroStep_draws (i : Fin 16) (s : State) : (roundMicroStep i s).draws = s.draws := rfl

@[simp] theorem finalMicroStep_ibuf (s : State) : (finalMicroStep s).ibuf = s.ibuf := rfl
@[simp] theorem finalMicroStep_obuf (s : State) : (finalMicroStep s).obuf = bytesOfBlock (finalBlock (s.l, s.r)) := rfl
@[simp] theorem finalMicroStep_k (s : State) : (finalMicroStep s).k = s.k := rfl
@[simp] theorem finalMicroStep_c (s : State) : (finalMicroStep s).c = s.c := rfl
@[simp] theorem finalMicroStep_d (s : State) : (finalMicroStep s).d = s.d := rfl
@[simp] theorem finalMicroStep_l (s : State) : (finalMicroStep s).l = s.l := rfl
@[simp] theorem finalMicroStep_r (s : State) : (finalMicroStep s).r = s.r := rfl
@[simp] theorem finalMicroStep_icnt (s : State) : (finalMicroStep s).icnt = s.icnt := rfl
@[simp] theorem finalMicroStep_ocnt (s : State) : (finalMicroStep s).ocnt = 8 := rfl
@[simp] theorem finalMicroStep_keyValid (s : State) : (finalMicroStep s).keyValid = s.keyValid := rfl
@[simp] theorem finalMicroStep_mode (s : State) : (finalMicroStep s).mode = s.mode := rfl
@[simp] theorem finalMicroStep_phase (s : State) : (finalMicroStep s).phase = .idle := rfl
@[simp] theorem finalMicroStep_rndctr (s : State) : (finalMicroStep s).rndctr = s.rndctr := rfl
@[simp] theorem finalMicroStep_err (s : State) : (finalMicroStep s).err = .ok := rfl
@[simp] theorem finalMicroStep_rsp (s : State) : (finalMicroStep s).rsp = some ⟨.ok, 0#8⟩ := rfl
@[simp] theorem finalMicroStep_inputs (s : State) : (finalMicroStep s).inputs = s.inputs := rfl
@[simp] theorem finalMicroStep_rspLog (s : State) : (finalMicroStep s).rspLog = s.rspLog ++ [⟨.ok, 0#8⟩] := rfl
@[simp] theorem finalMicroStep_draws (s : State) : (finalMicroStep s).draws = s.draws := rfl

@[simp] theorem beginStep_ibuf (s : State) : (beginStep s).ibuf = s.ibuf := rfl
@[simp] theorem beginStep_obuf (s : State) : (beginStep s).obuf = s.obuf := rfl
@[simp] theorem beginStep_k (s : State) : (beginStep s).k = s.k := rfl
@[simp] theorem beginStep_c (s : State) : (beginStep s).c = s.c := rfl
@[simp] theorem beginStep_d (s : State) : (beginStep s).d = s.d := rfl
@[simp] theorem beginStep_l (s : State) : (beginStep s).l = s.l := rfl
@[simp] theorem beginStep_r (s : State) : (beginStep s).r = s.r := rfl
@[simp] theorem beginStep_icnt (s : State) : (beginStep s).icnt = s.icnt := rfl
@[simp] theorem beginStep_ocnt (s : State) : (beginStep s).ocnt = s.ocnt := rfl
@[simp] theorem beginStep_keyValid (s : State) : (beginStep s).keyValid = s.keyValid := rfl
@[simp] theorem beginStep_mode (s : State) : (beginStep s).mode = s.mode := rfl
@[simp] theorem beginStep_phase (s : State) : (beginStep s).phase = s.phase := rfl
@[simp] theorem beginStep_rndctr (s : State) : (beginStep s).rndctr = s.rndctr := rfl
@[simp] theorem beginStep_err (s : State) : (beginStep s).err = s.err := rfl
@[simp] theorem beginStep_rsp (s : State) : (beginStep s).rsp = none := rfl
@[simp] theorem beginStep_inputs (s : State) : (beginStep s).inputs = remainingInputs s := rfl
@[simp] theorem beginStep_rspLog (s : State) : (beginStep s).rspLog = s.rspLog := rfl
@[simp] theorem beginStep_draws (s : State) : (beginStep s).draws = s.draws := rfl

@[simp] theorem resetEdge_ibuf (s : State) : (resetEdge s).ibuf = Config.unspecifiedIbuf s.draws := rfl
@[simp] theorem resetEdge_obuf (s : State) : (resetEdge s).obuf = Config.unspecifiedObuf s.draws := rfl
@[simp] theorem resetEdge_k (s : State) : (resetEdge s).k = Config.unspecifiedK s.draws := rfl
@[simp] theorem resetEdge_c (s : State) : (resetEdge s).c = Config.unspecified 28 s.draws .c := rfl
@[simp] theorem resetEdge_d (s : State) : (resetEdge s).d = Config.unspecified 28 s.draws .d := rfl
@[simp] theorem resetEdge_l (s : State) : (resetEdge s).l = Config.unspecified 32 s.draws .l := rfl
@[simp] theorem resetEdge_r (s : State) : (resetEdge s).r = Config.unspecified 32 s.draws .r := rfl
@[simp] theorem resetEdge_icnt (s : State) : (resetEdge s).icnt = 0 := rfl
@[simp] theorem resetEdge_ocnt (s : State) : (resetEdge s).ocnt = 0 := rfl
@[simp] theorem resetEdge_keyValid (s : State) : (resetEdge s).keyValid = false := rfl
@[simp] theorem resetEdge_mode (s : State) : (resetEdge s).mode = .encrypt := rfl
@[simp] theorem resetEdge_phase (s : State) : (resetEdge s).phase = .idle := rfl
@[simp] theorem resetEdge_rndctr (s : State) : (resetEdge s).rndctr = 0 := rfl
@[simp] theorem resetEdge_err (s : State) : (resetEdge s).err = .ok := rfl
@[simp] theorem resetEdge_rsp (s : State) : (resetEdge s).rsp = none := rfl
@[simp] theorem resetEdge_inputs (s : State) : (resetEdge s).inputs = s.inputs := rfl
@[simp] theorem resetEdge_rspLog (s : State) : (resetEdge s).rspLog = s.rspLog := rfl
@[simp] theorem resetEdge_draws (s : State) : (resetEdge s).draws = s.draws + 1 := rfl

@[simp] theorem presentWord_ibuf (w : CmdWord) (s : State) : (presentWord w s).ibuf = s.ibuf := rfl
@[simp] theorem presentWord_obuf (w : CmdWord) (s : State) : (presentWord w s).obuf = s.obuf := rfl
@[simp] theorem presentWord_k (w : CmdWord) (s : State) : (presentWord w s).k = s.k := rfl
@[simp] theorem presentWord_c (w : CmdWord) (s : State) : (presentWord w s).c = s.c := rfl
@[simp] theorem presentWord_d (w : CmdWord) (s : State) : (presentWord w s).d = s.d := rfl
@[simp] theorem presentWord_l (w : CmdWord) (s : State) : (presentWord w s).l = s.l := rfl
@[simp] theorem presentWord_r (w : CmdWord) (s : State) : (presentWord w s).r = s.r := rfl
@[simp] theorem presentWord_icnt (w : CmdWord) (s : State) : (presentWord w s).icnt = s.icnt := rfl
@[simp] theorem presentWord_ocnt (w : CmdWord) (s : State) : (presentWord w s).ocnt = s.ocnt := rfl
@[simp] theorem presentWord_keyValid (w : CmdWord) (s : State) : (presentWord w s).keyValid = s.keyValid := rfl
@[simp] theorem presentWord_mode (w : CmdWord) (s : State) : (presentWord w s).mode = s.mode := rfl
@[simp] theorem presentWord_phase (w : CmdWord) (s : State) : (presentWord w s).phase = .idle := rfl
@[simp] theorem presentWord_rndctr (w : CmdWord) (s : State) : (presentWord w s).rndctr = s.rndctr := rfl
@[simp] theorem presentWord_err (w : CmdWord) (s : State) : (presentWord w s).err = s.err := rfl
@[simp] theorem presentWord_rsp (w : CmdWord) (s : State) : (presentWord w s).rsp = s.rsp := rfl
@[simp] theorem presentWord_inputs (w : CmdWord) (s : State) : (presentWord w s).inputs = .command w :: s.inputs := rfl
@[simp] theorem presentWord_rspLog (w : CmdWord) (s : State) : (presentWord w s).rspLog = s.rspLog := rfl
@[simp] theorem presentWord_draws (w : CmdWord) (s : State) : (presentWord w s).draws = s.draws := rfl

@[simp] theorem takeFault_ibuf (f : CmdFault) (s : State) : (takeFault f s).ibuf = s.ibuf := by cases f <;> rfl
@[simp] theorem takeFault_obuf (f : CmdFault) (s : State) : (takeFault f s).obuf = s.obuf := by cases f <;> rfl
@[simp] theorem takeFault_c (f : CmdFault) (s : State) : (takeFault f s).c = s.c := by cases f <;> rfl
@[simp] theorem takeFault_d (f : CmdFault) (s : State) : (takeFault f s).d = s.d := by cases f <;> rfl
@[simp] theorem takeFault_l (f : CmdFault) (s : State) : (takeFault f s).l = s.l := by cases f <;> rfl
@[simp] theorem takeFault_r (f : CmdFault) (s : State) : (takeFault f s).r = s.r := by cases f <;> rfl
@[simp] theorem takeFault_ocnt (f : CmdFault) (s : State) : (takeFault f s).ocnt = s.ocnt := by cases f <;> rfl
@[simp] theorem takeFault_mode (f : CmdFault) (s : State) : (takeFault f s).mode = s.mode := by cases f <;> rfl
@[simp] theorem takeFault_phase (f : CmdFault) (s : State) : (takeFault f s).phase = s.phase := by cases f <;> rfl
@[simp] theorem takeFault_rndctr (f : CmdFault) (s : State) : (takeFault f s).rndctr = s.rndctr := by cases f <;> rfl
@[simp] theorem takeFault_err (f : CmdFault) (s : State) : (takeFault f s).err = .fault f := by cases f <;> rfl
@[simp] theorem takeFault_rsp (f : CmdFault) (s : State) : (takeFault f s).rsp = some ⟨.fault f, 0#8⟩ := by cases f <;> rfl
@[simp] theorem takeFault_inputs (f : CmdFault) (s : State) : (takeFault f s).inputs = s.inputs := by cases f <;> rfl
@[simp] theorem takeFault_rspLog (f : CmdFault) (s : State) : (takeFault f s).rspLog = s.rspLog ++ [⟨.fault f, 0#8⟩] := by cases f <;> rfl

/-- Every fault but code 1 draws no free value. -/
theorem takeFault_draws (f : CmdFault) (s : State) (hf : f ≠ .invalidKeyError) : (takeFault f s).draws = s.draws := by
  cases f
  · exact absurd rfl hf
  all_goals rfl

/-- Codes 1 to 4 flush the input buffer, 5 and 6 do not (spec/60_exceptions.md R221). -/
theorem takeFault_icnt (f : CmdFault) (s : State) :
    (takeFault f s).icnt = if f = .illegalCommand ∨ f = .outputEmptyFault then s.icnt else 0 := by
  cases f <;> rfl

/-- Only code 1 destroys the key (spec/60_exceptions.md R221). -/
theorem takeFault_keyValid (f : CmdFault) (s : State) :
    (takeFault f s).keyValid = if f = .invalidKeyError then false else s.keyValid := by
  cases f <;> rfl

/-- Every fault but code 1 keeps the subkey store. -/
theorem takeFault_k (f : CmdFault) (s : State) (hf : f ≠ .invalidKeyError) : (takeFault f s).k = s.k := by
  cases f
  · exact absurd rfl hf
  all_goals rfl

@[simp] theorem pushByte_obuf (b : Byte) (s : State) : (pushByte b s).obuf = s.obuf := by
  unfold pushByte; split <;> rfl
@[simp] theorem pushByte_k (b : Byte) (s : State) : (pushByte b s).k = s.k := by
  unfold pushByte; split <;> rfl
@[simp] theorem pushByte_c (b : Byte) (s : State) : (pushByte b s).c = s.c := by
  unfold pushByte; split <;> rfl
@[simp] theorem pushByte_d (b : Byte) (s : State) : (pushByte b s).d = s.d := by
  unfold pushByte; split <;> rfl
@[simp] theorem pushByte_l (b : Byte) (s : State) : (pushByte b s).l = s.l := by
  unfold pushByte; split <;> rfl
@[simp] theorem pushByte_r (b : Byte) (s : State) : (pushByte b s).r = s.r := by
  unfold pushByte; split <;> rfl
@[simp] theorem pushByte_ocnt (b : Byte) (s : State) : (pushByte b s).ocnt = s.ocnt := by
  unfold pushByte; split <;> rfl
@[simp] theorem pushByte_keyValid (b : Byte) (s : State) : (pushByte b s).keyValid = s.keyValid := by
  unfold pushByte; split <;> rfl
@[simp] theorem pushByte_mode (b : Byte) (s : State) : (pushByte b s).mode = s.mode := by
  unfold pushByte; split <;> rfl
@[simp] theorem pushByte_phase (b : Byte) (s : State) : (pushByte b s).phase = s.phase := by
  unfold pushByte; split <;> rfl
@[simp] theorem pushByte_rndctr (b : Byte) (s : State) : (pushByte b s).rndctr = s.rndctr := by
  unfold pushByte; split <;> rfl
@[simp] theorem pushByte_err (b : Byte) (s : State) : (pushByte b s).err = s.err := by
  unfold pushByte; split <;> rfl
@[simp] theorem pushByte_rsp (b : Byte) (s : State) : (pushByte b s).rsp = s.rsp := by
  unfold pushByte; split <;> rfl
@[simp] theorem pushByte_inputs (b : Byte) (s : State) : (pushByte b s).inputs = s.inputs := by
  unfold pushByte; split <;> rfl
@[simp] theorem pushByte_rspLog (b : Byte) (s : State) : (pushByte b s).rspLog = s.rspLog := by
  unfold pushByte; split <;> rfl
@[simp] theorem pushByte_draws (b : Byte) (s : State) : (pushByte b s).draws = s.draws := by
  unfold pushByte; split <;> rfl

/-- PUSH counts up to 9 and stays there (spec/10_state.md R26). -/
theorem pushByte_icnt_val (b : Byte) (s : State) :
    (pushByte b s).icnt.val = if s.icnt.val ≤ 8 then s.icnt.val + 1 else 9 := by
  unfold pushByte
  split
  · rename_i h
    rw [if_pos (by omega)]
  · rename_i h
    have h9 := s.icnt.isLt
    by_cases h8 : s.icnt.val = 8
    · rw [if_pos (by omega), h8]; rfl
    · rw [if_neg (by omega)]; rfl

/-- PUSH writes the next entry while there is room. -/
theorem pushByte_ibuf_of_room (b : Byte) (s : State) (h : s.icnt.val ≤ 7) :
    (pushByte b s).ibuf = s.ibuf.set s.icnt.val b := by
  unfold pushByte; rw [dif_pos h]

/-- PUSH drops the byte where there is none. -/
theorem pushByte_ibuf_of_full (b : Byte) (s : State) (h : ¬ s.icnt.val ≤ 7) : (pushByte b s).ibuf = s.ibuf := by
  unfold pushByte; rw [dif_neg h]

/-- The sixteenth key-schedule micro-step. -/
theorem keyMicroStep_last (i : Fin 16) (s : State) (h : i.val = 15) :
    keyMicroStep i s = succeed 0#8 { keyRound i s with keyValid := true, phase := .idle } := if_pos h

/-- Every key-schedule micro-step before the sixteenth. -/
theorem keyMicroStep_earlier (i : Fin 16) (s : State) (h : i.val ≠ 15) : keyMicroStep i s = keyRound i s := if_neg h

end Sys2Proof.Machine
end

