-- ==== Sys2Proof/Laws/Step.lean ====
section
/-! SUPPORT. Everything a step can do, said once: which action the sequencer takes, and what each command's accepting
step answers. -/

namespace Sys2Proof.Machine

/-- What a reset at the head of the inputs does to the choice of action. -/
theorem nextAction_of_rstPin (s : State) (h : rstPin s = true) : nextAction s = .reset := if_pos h

/-- Where there is no reset, the sequencer chooses. -/
theorem nextAction_of_not_rstPin (s : State) (h : rstPin s = false) : nextAction s = sequencerAction s := by
  rw [nextAction, h]; rfl

/-- A command at the head of the inputs is no reset. -/
theorem rstPin_of_command {s : State} {w : CmdWord} {rest : List HostEvent} (h : s.inputs = .command w :: rest) :
    rstPin s = false := by
  rw [rstPin, h]; rfl

/-- An idle core accepts the command the host presents (spec/30_encoding.md R72). -/
theorem nextAction_accept {s : State} {w : CmdWord} {rest : List HostEvent} (hp : s.phase = .idle)
    (h : s.inputs = .command w :: rest) : nextAction s = .accept w := by
  rw [nextAction_of_not_rstPin s (rstPin_of_command h)]
  simp only [sequencerAction, hp, h]

/-- The accepted command is presented no longer. -/
theorem remainingInputs_accept {s : State} {w : CmdWord} {rest : List HostEvent} (hp : s.phase = .idle)
    (h : s.inputs = .command w :: rest) : remainingInputs s = rest := by
  simp only [remainingInputs, h, hp, if_true]

/-- A command presented while an operation runs is presented again (spec/30_encoding.md R72). -/
theorem remainingInputs_held {s : State} (hp : s.phase ≠ .idle) (h : ∀ e ∈ s.inputs, ∃ w, e = HostEvent.command w) :
    remainingInputs s = s.inputs := by
  unfold remainingInputs
  split
  · rename_i h0; exact h0.symm
  · rename_i h0; rw [if_neg hp, h0]
  · rename_i h0
    obtain ⟨w, hw⟩ := h _ (h0 ▸ List.mem_cons_self)
    cases hw
  · rename_i h0
    obtain ⟨w, hw⟩ := h _ (h0 ▸ List.mem_cons_self)
    cases hw

/-- The actions of a running key schedule, and when there is one. -/
theorem sequencerAction_ks {s : State} (hp : s.phase = .ks) (hv : s.keyValid = false) (h : s.rndctr.val < 16) :
    sequencerAction s = .keyRound ⟨s.rndctr.val, h⟩ := by
  simp only [sequencerAction, hp, dif_pos h, hv, Bool.false_eq_true, if_false]

/-- The round micro-step is enabled for `RNDCTR <= 15` (spec/44_blockcipher.md R176). -/
theorem sequencerAction_rnd {s : State} (hp : s.phase = .rnd) (hv : s.keyValid = true) (h : s.rndctr.val < 16) :
    sequencerAction s = .cipherRound ⟨s.rndctr.val, h⟩ := by
  simp only [sequencerAction, hp, hv, if_true, dif_pos h]

/-- The final micro-step is enabled for `RNDCTR = 16` (spec/44_blockcipher.md R177). -/
theorem sequencerAction_final {s : State} (hp : s.phase = .rnd) (hv : s.keyValid = true) (h : s.rndctr.val = 16) :
    sequencerAction s = .final := by
  simp only [sequencerAction, hp, hv, if_true, dif_neg (show ¬ s.rndctr.val < 16 by omega)]

/-- What the sequencer's choice says of the state: one line per action. -/
theorem sequencerAction_cases (s : State) :
    (∃ w rest, sequencerAction s = .accept w ∧ s.phase = .idle ∧ s.inputs = .command w :: rest) ∨
    (sequencerAction s = .wait ∧ s.phase = .idle) ∨
    (∃ i, sequencerAction s = .keyRound i ∧ s.phase = .ks ∧ s.keyValid = false ∧ s.rndctr.val = i.val) ∨
    (∃ i, sequencerAction s = .cipherRound i ∧ s.phase = .rnd ∧ s.keyValid = true ∧ s.rndctr.val = i.val) ∨
    (sequencerAction s = .final ∧ s.phase = .rnd ∧ s.keyValid = true ∧ s.rndctr.val = 16) ∨
    (sequencerAction s = .stuck ∧ ¬ ControlInv s) := by
  have hlt := s.rndctr.isLt
  cases hp : s.phase with
  | idle =>
    cases hin : s.inputs with
    | nil => right; left; simp [sequencerAction, hp, hin]
    | cons e rest =>
      cases e with
      | command w => left; exact ⟨w, rest, by simp [sequencerAction, hp, hin], rfl, rfl⟩
      | quiet => right; left; simp [sequencerAction, hp, hin]
      | reset => right; left; simp [sequencerAction, hp, hin]
  | ks =>
    by_cases hv : s.keyValid = true
    · right; right; right; right; right
      refine ⟨?_, fun hinv => ?_⟩
      · simp only [sequencerAction, hp, hv, if_true]
        split <;> rfl
      · rw [(hinv.2 hp).1] at hv; cases hv
    · have hv' : s.keyValid = false := by simpa using hv
      by_cases hr : s.rndctr.val < 16
      · right; right; left
        exact ⟨⟨s.rndctr.val, hr⟩, sequencerAction_ks hp hv' hr, rfl, hv', rfl⟩
      · right; right; right; right; right
        refine ⟨by simp only [sequencerAction, hp, dif_neg hr], fun hinv => ?_⟩
        have := (hinv.2 hp).2
        omega
  | rnd =>
    by_cases hv : s.keyValid = true
    · by_cases hr : s.rndctr.val < 16
      · right; right; right; left
        exact ⟨⟨s.rndctr.val, hr⟩, sequencerAction_rnd hp hv hr, rfl, hv, rfl⟩
      · right; right; right; right; left
        exact ⟨sequencerAction_final hp hv (by omega), rfl, hv, by omega⟩
    · right; right; right; right; right
      refine ⟨by simp only [sequencerAction, hp, hv, Bool.false_eq_true, if_false], fun hinv => hv (hinv.1 hp)⟩

/-- What the accepting step of each command makes of the state: the branches of its rule, by what they test. -/
theorem exec_cases (i : Instr) (s : State) :
    (i = .nop ∧ exec i s = .next (respond .ok 0#8 s)) ∨
    (∃ b, i = .push b ∧ exec i s = .next (succeed 0#8 (pushByte b s))) ∨
    (i = .loadkey ∧ inputComplete s = true ∧ exec i s = .next (startKeySchedule s)) ∨
    (∃ m, (i = .enc ∧ m = .encrypt ∨ i = .dec ∧ m = .decrypt) ∧ s.keyValid = true ∧ inputComplete s = true ∧
      exec i s = .next (startCipher m s)) ∨
    (∃ h : s.ocnt.val ≠ 0, i = .pop ∧ exec i s = .next (succeed (nextOutput s h) (consumeOutput s))) ∨
    (∃ f, i ≠ .nop ∧ (∀ b, i ≠ .push b) ∧ (f = .invalidKeyError ↔ i = .loadkey) ∧ (f = .outputEmptyFault ↔ i = .pop) ∧
      (f = .illegalCommand ↔ i = .reserved110 ∨ i = .reserved111) ∧ exec i s = .next (takeFault f s)) := by
  cases i with
  | nop => left; exact ⟨rfl, rfl⟩
  | push b => right; left; exact ⟨b, rfl, rfl⟩
  | loadkey =>
    cases h : inputComplete s with
    | true => right; right; left; exact ⟨rfl, rfl, by simp [exec, execLoadkey, h]⟩
    | false =>
      right; right; right; right; right
      exact ⟨.invalidKeyError, by simp, by simp, by simp, by simp, by simp, by simp [exec, execLoadkey, h]⟩
  | enc =>
    cases hv : s.keyValid with
    | false =>
      right; right; right; right; right
      exact ⟨.noKeyFault, by simp, by simp, by simp, by simp, by simp, by simp [exec, execEnc, hv]⟩
    | true =>
      cases h : inputComplete s with
      | true =>
        right; right; right; left
        exact ⟨.encrypt, .inl ⟨rfl, rfl⟩, rfl, rfl, by simp [exec, execEnc, hv, h]⟩
      | false =>
        right; right; right; right; right
        exact ⟨.blockLengthFault, by simp, by simp, by simp, by simp, by simp, by simp [exec, execEnc, hv, h]⟩
  | dec =>
    cases hv : s.keyValid with
    | false =>
      right; right; right; right; right
      exact ⟨.noKeyFault, by simp, by simp, by simp, by simp, by simp, by simp [exec, execDec, hv]⟩
    | true =>
      cases h : inputComplete s with
      | true =>
        right; right; right; left
        exact ⟨.decrypt, .inr ⟨rfl, rfl⟩, rfl, rfl, by simp [exec, execDec, hv, h]⟩
      | false =>
        right; right; right; right; right
        exact ⟨.invalidInputError, by simp, by simp, by simp, by simp, by simp, by simp [exec, execDec, hv, h]⟩
  | pop =>
    by_cases h : s.ocnt.val = 0
    · right; right; right; right; right
      exact ⟨.outputEmptyFault, by simp, by simp, by simp, by simp, by simp, by simp only [exec, execPop, dif_pos h]⟩
    · right; right; right; right; left
      exact ⟨h, rfl, by simp only [exec, execPop, dif_neg h]⟩
  | reserved110 =>
    right; right; right; right; right
    exact ⟨.illegalCommand, by simp, by simp, by simp, by simp, by simp, rfl⟩
  | reserved111 =>
    right; right; right; right; right
    exact ⟨.illegalCommand, by simp, by simp, by simp, by simp, by simp, rfl⟩

/-- A reset at the head of the inputs is taken whatever the state (spec/70_reset_and_hazards.md R250). -/
theorem step_of_rstPin (s : State) (hr : rstPin s = true) : step s = .next (resetEdge (beginStep s)) := by
  simp only [step, nextAction_of_rstPin s hr]

/-- Everything a step that is no reset can do, when it answers a next state. -/
theorem step_cases {s t : State} (h : step s = .next t) (hr : rstPin s = false) :
    (∃ w rest, s.phase = .idle ∧ s.inputs = .command w :: rest ∧ exec (decode w) (beginStep s) = .next t) ∨
    (s.phase = .idle ∧ t = beginStep s ∧ ∀ w rest, s.inputs ≠ .command w :: rest) ∨
    (∃ i : Fin 16, s.phase = .ks ∧ s.keyValid = false ∧ s.rndctr.val = i.val ∧ t = keyMicroStep i (beginStep s)) ∨
    (∃ i : Fin 16, s.phase = .rnd ∧ s.keyValid = true ∧ s.rndctr.val = i.val ∧ t = roundMicroStep i (beginStep s)) ∨
    (s.phase = .rnd ∧ s.keyValid = true ∧ s.rndctr.val = 16 ∧ t = finalMicroStep (beginStep s)) := by
  rw [step, nextAction_of_not_rstPin s hr] at h
  rcases sequencerAction_cases s with ⟨w, rest, ha, h1, h2⟩ | ⟨ha, h1⟩ | ⟨i, ha, h1, h2, h3⟩ | ⟨i, ha, h1, h2, h3⟩ |
    ⟨ha, h1, h2, h3⟩ | ⟨ha, _⟩ <;> rw [ha] at h
  · exact .inl ⟨w, rest, h1, h2, h⟩
  · injection h with h
    refine .inr (.inl ⟨h1, h.symm, fun w rest hin => ?_⟩)
    simp [sequencerAction, h1, hin] at ha
  · injection h with h
    exact .inr (.inr (.inl ⟨i, h1, h2, h3, h.symm⟩))
  · injection h with h
    exact .inr (.inr (.inr (.inl ⟨i, h1, h2, h3, h.symm⟩)))
  · injection h with h
    exact .inr (.inr (.inr (.inr ⟨h1, h2, h3, h.symm⟩)))
  · cases h

/-! ### Runs of steps -/

/-- A run peels off its first step. -/
theorem run_succ {n : Nat} {s t : State} (h : step s = .next t) :
    Host.Core.run Sys2Proof.core (n + 1) s = Host.Core.run Sys2Proof.core n t := by
  simp only [Host.Core.run]
  rw [show Sys2Proof.core.step s = .next t from h]

/-- A run of `m + n` steps is a run of `m` and then one of `n`. -/
theorem run_add {m n : Nat} {s t : State} (h : Host.Core.run Sys2Proof.core m s = .next t) :
    Host.Core.run Sys2Proof.core (m + n) s = Host.Core.run Sys2Proof.core n t := by
  induction m generalizing s with
  | zero =>
    injection h with h
    rw [Nat.zero_add, h]
  | succ m ih =>
    rw [Nat.succ_add]
    cases hs : step s with
    | next s' =>
      rw [run_succ hs] at h ⊢
      exact ih h
    | fault r =>
      simp only [Host.Core.run] at h
      rw [show Sys2Proof.core.step s = .fault r from hs] at h
      cases h
    | refused r =>
      simp only [Host.Core.run] at h
      rw [show Sys2Proof.core.step s = .refused r from hs] at h
      cases h

/-- Where only commands are presented, no reset is next. -/
theorem rstPin_of_commands {s : State} (h : ∀ e ∈ s.inputs, ∃ w, e = HostEvent.command w) : rstPin s = false := by
  cases hin : s.inputs with
  | nil => simp only [rstPin, hin]; rfl
  | cons e rest =>
    obtain ⟨w, rfl⟩ := h e (hin ▸ List.mem_cons_self)
    exact rstPin_of_command hin

/-- While an operation runs and only commands wait, the start of a step changes nothing. -/
theorem beginStep_held {s : State} (hp : s.phase ≠ .idle) (hr : s.rsp = none)
    (h : ∀ e ∈ s.inputs, ∃ w, e = HostEvent.command w) : beginStep s = s := by
  rw [beginStep, remainingInputs_held hp h, ← hr]

/-- The key-schedule micro-step behind an accepted LOADKEY. -/
theorem step_keyRound {s : State} {i : Fin 16} (hp : s.phase = .ks) (hv : s.keyValid = false)
    (hi : s.rndctr.val = i.val) (hr : s.rsp = none) (h : ∀ e ∈ s.inputs, ∃ w, e = HostEvent.command w) :
    step s = .next (keyMicroStep i s) := by
  rw [step, nextAction_of_not_rstPin _ (rstPin_of_commands h), sequencerAction_ks hp hv (by omega),
    beginStep_held (by rw [hp]; simp) hr h]
  exact congrArg (fun j => Host.Outcome.next (keyMicroStep j s)) (Fin.ext hi)

/-- The round micro-step behind an accepted ENC or DEC. -/
theorem step_cipherRound {s : State} {i : Fin 16} (hp : s.phase = .rnd) (hv : s.keyValid = true)
    (hi : s.rndctr.val = i.val) (hr : s.rsp = none) (h : ∀ e ∈ s.inputs, ∃ w, e = HostEvent.command w) :
    step s = .next (roundMicroStep i s) := by
  rw [step, nextAction_of_not_rstPin _ (rstPin_of_commands h), sequencerAction_rnd hp hv (by omega),
    beginStep_held (by rw [hp]; simp) hr h]
  exact congrArg (fun j => Host.Outcome.next (roundMicroStep j s)) (Fin.ext hi)

/-- The final micro-step behind an accepted ENC or DEC. -/
theorem step_final {s : State} (hp : s.phase = .rnd) (hv : s.keyValid = true) (hi : s.rndctr.val = 16)
    (hr : s.rsp = none) (h : ∀ e ∈ s.inputs, ∃ w, e = HostEvent.command w) : step s = .next (finalMicroStep s) := by
  rw [step, nextAction_of_not_rstPin _ (rstPin_of_commands h), sequencerAction_final hp hv hi,
    beginStep_held (by rw [hp]; simp) hr h]

end Sys2Proof.Machine
end

