-- ==== Sys2Proof/Laws/HostDriver.lean ====
section
/-! SUPPORT. What the host's driver does, one step, one word and one block at a time. -/

namespace Sys2Proof.Machine

/-- A step that drives a response ends the wait. -/
theorem awaitResponse_of_rsp {n : Nat} {s t : State} {r : Response} (h : step s = .next t) (hr : t.rsp = some r) :
    awaitResponse (n + 1) s = some (t, r) := by
  simp only [awaitResponse, h, hr]

/-- A step that drives none is waited for. -/
theorem awaitResponse_of_none {n : Nat} {s t : State} (h : step s = .next t) (hr : t.rsp = none) :
    awaitResponse (n + 1) s = awaitResponse n t := by
  simp only [awaitResponse, h, hr]

/-- The response that ends a wait is the one on the port. -/
theorem rsp_of_awaitResponse {n : Nat} {s t : State} {r : Response} (h : awaitResponse n s = some (t, r)) :
    t.rsp = some r := by
  induction n generalizing s with
  | zero => cases h
  | succ n ih =>
    cases hs : step s with
    | fault e => simp only [awaitResponse, hs] at h; cases h
    | refused e => simp only [awaitResponse, hs] at h; cases h
    | next u =>
      cases hu : u.rsp with
      | none => exact ih ((awaitResponse_of_none hs hu).symm.trans h)
      | some q =>
        have hq := (awaitResponse_of_rsp (n := n) hs hu).symm.trans h
        simp only [Option.some.injEq, Prod.mk.injEq] at hq
        rw [← hq.1, ← hq.2, hu]

/-- A command that answers in its accepting step is answered by that step (spec/30_encoding.md R73). -/
theorem issue_of_exec {w : CmdWord} {s t : State} {r : Response} (hp : s.phase = .idle)
    (h : exec (decode w) { s with inputs := [], rsp := none } = .next t) (hr : t.rsp = some r) :
    issue w s = some (t, r) := by
  have hs : step { s with inputs := [.command w] } = .next t := by
    rw [step, nextAction_accept (s := { s with inputs := [.command w] }) hp rfl]
    simp only [beginStep, remainingInputs_accept (s := { s with inputs := [.command w] }) hp rfl]
    exact h
  exact awaitResponse_of_rsp hs hr

@[simp] theorem drive_nil (s : State) : drive [] s = (s, .ok []) := rfl

/-- After a response without a fault the next word is issued. -/
theorem drive_cons_ok {w : CmdWord} {ws : List CmdWord} {s t u : State} {data : Byte} {bytes : List Byte}
    (h : issue w s = some (t, ⟨.ok, data⟩)) (hd : drive ws t = (u, .ok bytes)) :
    drive (w :: ws) s = (u, .ok (data :: bytes)) := by
  simp only [drive, h, hd]

/-- A later error is the error of the whole. -/
theorem drive_cons_error {w : CmdWord} {ws : List CmdWord} {s t u : State} {data : Byte} {e : HostError}
    (h : issue w s = some (t, ⟨.ok, data⟩)) (hd : drive ws t = (u, .error e)) :
    drive (w :: ws) s = (u, .error e) := by
  simp only [drive, h, hd]

/-- After a fault no further word is issued. -/
theorem drive_cons_fault {w : CmdWord} {ws : List CmdWord} {s t : State} {f : CmdFault} {data : Byte}
    (h : issue w s = some (t, ⟨.fault f, data⟩)) : drive (w :: ws) s = (t, .error (hostErrorOf f)) := by
  simp only [drive, h]

/-- Two lists of words, one after the other. -/
theorem drive_append_ok {ws vs : List CmdWord} {s t : State} {bytes : List Byte} (h : drive ws s = (t, .ok bytes)) :
    drive (ws ++ vs) s =
      match drive vs t with
      | (u, .ok more) => (u, .ok (bytes ++ more))
      | (u, .error e) => (u, .error e) := by
  induction ws generalizing s bytes with
  | nil =>
    simp only [drive_nil, Prod.mk.injEq, Except.ok.injEq] at h
    rw [List.nil_append, ← h.1, ← h.2]
    rcases drive vs s with ⟨u, e | more⟩ <;> rfl
  | cons w ws ih =>
    cases hi : issue w s with
    | none => simp [drive, hi] at h
    | some p =>
      obtain ⟨t', f | f, data⟩ := p
      · cases hd : drive ws t' with
        | mk u res =>
          cases res with
          | error e => rw [drive_cons_error hi hd] at h; cases h
          | ok rest =>
            rw [drive_cons_ok hi hd] at h
            simp only [Prod.mk.injEq, Except.ok.injEq] at h
            obtain ⟨rfl, rfl⟩ := h
            simp only [List.cons_append, drive, hi, ih hd]
            rcases drive vs u with ⟨v, e | more⟩ <;> rfl
      · rw [drive_cons_fault hi] at h; cases h

/-- A block whose words are answered without a fault is popped. -/
theorem driveBlock_of_ok {m : Mode} {b : Bytes8} {s t : State} {bytes : List Byte}
    (h : drive (blockWords m b) s = (t, .ok bytes)) : driveBlock m b s = drive (wordsOf .pop8) t := by
  simp only [driveBlock, h]

/-- A block whose words fault is not popped. -/
theorem driveBlock_of_error {m : Mode} {b : Bytes8} {s t : State} {e : HostError}
    (h : drive (blockWords m b) s = (t, .error e)) : driveBlock m b s = (t, .error e) := by
  simp only [driveBlock, h]

@[simp] theorem driveBlocks_nil (m : Mode) (s : State) : driveBlocks m [] s = (s, .ok []) := rfl

/-- The output blocks stand in the order of the blocks. -/
theorem driveBlocks_cons_ok {m : Mode} {b : Bytes8} {blocks : List Bytes8} {s t u : State} {out more : List Byte}
    (h : driveBlock m b s = (t, .ok out)) (hd : driveBlocks m blocks t = (u, .ok more)) :
    driveBlocks m (b :: blocks) s = (u, .ok (out ++ more)) := by
  simp only [driveBlocks, h, hd]

end Sys2Proof.Machine
end

