-- ==== Sys2Proof/Laws/PerInstr.lean ====
section
/-! SUPPORT. Statements about an instruction as syntax, one lemma per constructor. -/

/-- The encoder puts the opcode of the table in bits 10:8 and the operand, or zeros, in bits 7:0
(spec/30_encoding.md R71, R74). -/
def Sys2Proof.Laws.EncodedFields.Statement (i : Sys2Proof.Instr) : Prop :=
  Sys2Proof.opField (Sys2Proof.encode i) = i.op ∧ Sys2Proof.imm8Field (Sys2Proof.encode i) = i.low8

namespace Sys2Proof.Laws.EncodedFields

theorem nop : Statement .nop := by unfold Statement; decide

theorem push (imm8 : Byte) : Statement (.push imm8) := by
  constructor
  · refine BitVec.eq_of_getLsbD_eq fun i hi => ?_
    rw [opField, BitVec.getLsbD_extractLsb', encode, BitVec.getLsbD_append]
    have h : ¬ 8 + i < 8 := by omega
    simp only [hi, h, decide_true, Bool.true_and, Nat.add_sub_cancel_left, if_false]
  · refine BitVec.eq_of_getLsbD_eq fun i hi => ?_
    rw [imm8Field, BitVec.getLsbD_extractLsb', encode, BitVec.getLsbD_append]
    simp only [hi, Nat.zero_add, decide_true, Bool.true_and, if_true]

theorem loadkey : Statement .loadkey := by unfold Statement; decide

theorem enc : Statement .enc := by unfold Statement; decide

theorem dec : Statement .dec := by unfold Statement; decide

theorem pop : Statement .pop := by unfold Statement; decide

theorem reserved110 : Statement .reserved110 := by unfold Statement; decide

theorem reserved111 : Statement .reserved111 := by unfold Statement; decide

end Sys2Proof.Laws.EncodedFields
end

