-- ==== Sys2Proof/Tests/Slice0.lean ====
section
/-! SUPPORT. The model's own tests. Expected values come from spec/95_test_vectors.md and from the examples in the rules;
the words are written out from spec/30_encoding.md R71 and R74. The theorems named `witness_…` show that the
hypotheses of the obligation they name can be met, at the ends of their ranges. -/

namespace Sys2Proof.Tests

open Sys2Proof.Machine

/-! ### Helpers -/

/-- The eight key bytes of spec/95_test_vectors.md section 1. -/
def keyBytes : Bytes8 := #v[0x13#8, 0x34#8, 0x57#8, 0x79#8, 0x9B#8, 0xBC#8, 0xDF#8, 0xF1#8]

/-- The eight plaintext bytes of that section. -/
def plainBytes : Bytes8 := #v[0x01#8, 0x23#8, 0x45#8, 0x67#8, 0x89#8, 0xAB#8, 0xCD#8, 0xEF#8]

/-- The eight ciphertext bytes of that section. -/
def cipherBytes : Bytes8 := #v[0x85#8, 0xE8#8, 0x13#8, 0x54#8, 0x0F#8, 0x0A#8, 0xB4#8, 0x05#8]

/-- An idle state with small contents, to be varied. -/
def idleState : State where
  ibuf := plainBytes
  obuf := cipherBytes
  k := Vector.replicate 16 0#48
  c := 0#28
  d := 0#28
  l := 0#32
  r := 0#32
  icnt := 0
  ocnt := 0
  keyValid := false
  mode := .encrypt
  phase := .idle
  rndctr := 0
  err := .fault .outputEmptyFault
  rsp := none
  inputs := []
  rspLog := []
  draws := 5

/-- `idleState` with these counts and this `KEYVALID`. -/
def counts (icnt : Fin 10) (ocnt : Fin 9) (keyValid : Bool) : State :=
  { idleState with icnt := icnt, ocnt := ocnt, keyValid := keyValid }

/-- `counts` with a word presented at the port. -/
def presented (w : CmdWord) (icnt : Fin 10) (ocnt : Fin 9) (keyValid : Bool) : State :=
  { counts icnt ocnt keyValid with inputs := [.command w] }

/-- A state in the middle of a key schedule. -/
def scheduling (rndctr : Fin 17) (inputs : List HostEvent) : State :=
  { idleState with phase := .ks, rndctr := rndctr, c := 0xF0CCAAF#28, d := 0x556678F#28, inputs := inputs }

/-- A state in the middle of a block operation. -/
def ciphering (m : Mode) (rndctr : Fin 17) (inputs : List HostEvent) : State :=
  { idleState with
    phase := .rnd, keyValid := true, mode := m, rndctr := rndctr, l := 0xCC00CCFF#32, r := 0xF0AAF0AA#32
    inputs := inputs
    k := (Vector.replicate 16 0#48).set 0 0x1B02EFFC7072#48 }

/-- A state in the middle of an encryption of `X` under sixteen zero subkeys. -/
def cipheringBlock (X : Block) (rndctr : Fin 17) : State :=
  { idleState with
    phase := .rnd, keyValid := true, rndctr := rndctr
    l := (halvesAfter (Vector.replicate 16 0#48) .encrypt (startHalves X) rndctr.val).1
    r := (halvesAfter (Vector.replicate 16 0#48) .encrypt (startHalves X) rndctr.val).2 }

/-- What one field is after a step, where the step answers a next state. -/
def afterStep {α : Type} (field : State → α) (s : State) : Option α :=
  match step s with
  | .next t => some (field t)
  | .fault _ => none
  | .refused _ => none

/-! ### WellFormed refuses what is ill-formed -/

/-- 11 bits are the most (R71). -/
theorem test_wordInRange : wordInRange 0x7FF = true ∧ wordInRange 0x800 = false := by decide

/-- A reserved command has no mnemonic (R78). -/
theorem test_reserved_has_no_mnemonic :
    (ScriptItem.command .reserved110).wellFormed = false ∧ (ScriptItem.command .reserved111).wellFormed = false ∧
    (ScriptItem.command .pop).wellFormed = true := by decide

/-- `.WORD` takes 000 to 7FF (R78). -/
theorem test_raw_word_range :
    (ScriptItem.word 0x800).wellFormed = false ∧ (ScriptItem.word 0x7FF).wellFormed = true := by decide

/-- `h16` is eight bytes, no fewer and no more (R79). -/
theorem test_pseudo_commands_take_eight_bytes :
    (ScriptItem.key (List.replicate 7 0#8)).wellFormed = false ∧
    (ScriptItem.encb (List.replicate 9 0#8)).wellFormed = false ∧
    (ScriptItem.decb []).wellFormed = false ∧ (ScriptItem.key (List.replicate 8 0#8)).wellFormed = true := by decide

/-- Table entries lie in `1..n` and there are `m` of them (R112). -/
theorem test_permTableOk :
    permTableOk 4 4 [4, 1, 1, 2] = true ∧ permTableOk 4 4 [5, 1, 1, 2] = false ∧
    permTableOk 4 4 [0, 1, 1, 2] = false ∧ permTableOk 4 4 [1, 1, 2] = false := by decide

/-- An S-box has 64 entries, each 0 to 15 (R153). -/
theorem test_sboxOk :
    sboxOk (List.replicate 64 15) = true ∧ sboxOk (List.replicate 64 16) = false ∧
    sboxOk (List.replicate 63 0) = false := by decide

/-- Ill-formed script lines are refused by the assembler. -/
theorem test_assembler_refuses :
    assembleItem (.word 0x800) = .error .badOperand ∧ assembleItem (.command .reserved111) = .error .badOperand ∧
    parseLine ['E', 'N', 'C', 'X'] = .error .unknownLine ∧ parseLine ['e', 'n', 'c'] = .error .unknownLine ∧
    parseLine ['P', 'U', 'S', 'H', ' ', '0', 'x', '1'] = .error .badOperand := by
  refine ⟨rfl, rfl, rfl, rfl, rfl⟩

/-! ### Decoding, bit by bit -/

/-- `000xxxxxxxx` (R74). -/
theorem test_decode_nop : decode 0b00000000000#11 = .nop ∧ decode 0b00010110101#11 = .nop := by decide

/-- `001iiiiiiii` (R74): `imm8` is bits 7:0, not sign-extended, most significant bit first. -/
theorem test_decode_push : decode 0b00110000001#11 = .push 0x81#8 ∧ decode 0b00100000000#11 = .push 0x00#8 := by
  decide

/-- `010xxxxxxxx` (R74). -/
theorem test_decode_loadkey : decode 0b01000000000#11 = .loadkey ∧ decode 0b01011111111#11 = .loadkey := by decide

/-- `011xxxxxxxx` (R74). -/
theorem test_decode_enc : decode 0b01100000000#11 = .enc ∧ decode 0b01110000000#11 = .enc := by decide

/-- `100xxxxxxxx` (R74). -/
theorem test_decode_dec : decode 0b10000000000#11 = .dec ∧ decode 0b10000000001#11 = .dec := by decide

/-- `101xxxxxxxx` (R74). -/
theorem test_decode_pop : decode 0b10100000000#11 = .pop ∧ decode 0b10111111111#11 = .pop := by decide

/-- `110xxxxxxxx`, and the word 0x6AB of spec/95_test_vectors.md section 3.8. -/
theorem test_decode_reserved110 :
    decode 0b11000000000#11 = .reserved110 ∧ decode 0b11010101011#11 = .reserved110 := by decide

/-- `111xxxxxxxx` (R74). -/
theorem test_decode_reserved111 :
    decode 0b11100000000#11 = .reserved111 ∧ decode 0b11111111111#11 = .reserved111 := by decide

/-- The words of R78. -/
theorem test_encode :
    encode .nop = 0x000#11 ∧ encode (.push 0xFF#8) = 0x1FF#11 ∧ encode .loadkey = 0x200#11 ∧
    encode .enc = 0x300#11 ∧ encode .dec = 0x400#11 ∧ encode .pop = 0x500#11 := by decide

/-- A twelfth bit makes a number no command. -/
theorem test_decodeTableWord :
    decodeTableWord 16 0x1F1 = some (.push 0xF1#8) ∧ decodeTableWord 16 0x801 = none ∧
    decodeTableWord 11 0x700 = some .reserved111 := by decide

/-! ### The pure functions, on values of spec/95_test_vectors.md section 3 -/

/-- R90, R91: bytes `A5 3C`, most significant bit first. -/
theorem test_codec :
    bytesToBits #v[0xA5#8, 0x3C#8] = 0b1010010100111100#16 ∧
    bitsToBytes (m := 2) 0b1000010111101000#16 = #v[0x85#8, 0xE8#8] := by decide

/-- R110: `permute(1 0 1 1, [4,1,1,2]) = 1 1 1 0`. -/
theorem test_permute :
    permute 0b1011#4 (⟨[4, 1, 1, 2], by decide⟩ : PermTable 4 4) = 0b1110#4 := by decide

/-- Section 3.2, whole words. -/
theorem test_tables :
    permute 0x0123456789ABCDEF#64 ipTable = 0xCC00CCFFF0AAF0AA#64 ∧
    permute 0xF0AAF0AA#32 eTable = 0x7A15557A1555#48 ∧ permute 0x5C82B597#32 pTable = 0x234AA9BB#32 ∧
    permute 0x133457799BBCDFF1#64 pc1Table = 0xF0CCAAF556678F#56 := by decide +kernel

/-- Section 3.4: the two row bits told apart, and the usual textbook case. -/
theorem test_sboxOut :
    sboxOut 0 0b000001#6 = 0b0000#4 ∧ sboxOut 0 0b100000#6 = 0b0100#4 ∧ sboxOut 0 0b011011#6 = 0b0101#4 ∧
    sboxOut 7 0b100110#6 = 0b0001#4 := by decide

/-- Section 3.4, the f-function. -/
theorem test_feistel :
    feistel 0xF0AAF0AA#32 0x1B02EFFC7072#48 = 0x234AA9BB#32 ∧ feistel 0#32 0#48 = 0xD8D8DBBC#32 := by decide +kernel

/-- Section 3.3: a rotation by one and by two, and the first subkey. -/
theorem test_key_schedule :
    rotl 0x8000000#28 1 = 0x0000001#28 ∧ rotl 0x4000000#28 2 = 0x0000001#28 ∧
    subkeyAt 0x133457799BBCDFF1#64 1 = 0x1B02EFFC7072#48 := by decide +kernel

/-- Section 3.6, a weak key: the schedule is all zeros. -/
theorem test_encryptBlock :
    encryptBlock (Vector.replicate 16 0#48) 0#64 = 0x8CA64DE9C1B123A7#64 := by decide +kernel

/-- Section 3.9: the padding of `41`, and three rows of the strip table. -/
theorem test_pad_and_strip :
    pad HostConfig.default [0x41#8] = [0x41#8, 7#8, 7#8, 7#8, 7#8, 7#8, 7#8, 7#8] ∧
    strip HostConfig.default [0x41#8, 3#8, 3#8, 3#8] (by decide) = [0x41#8] ∧
    strip HostConfig.default [0x41#8, 3#8, 4#8, 3#8] (by decide) = [0x41#8, 3#8, 4#8, 3#8] ∧
    strip HostConfig.default (List.replicate 8 8#8) (by decide) = List.replicate 8 8#8 := by decide

/-! ### One step of each command -/

/-- NOP keeps `ERR` (spec/95_test_vectors.md section 3.8, row 6). -/
theorem test_step_nop :
    afterStep (fun t => (t.err, t.rsp, t.inputs)) (presented 0x0FF#11 0 0 false) =
      some (.fault .outputEmptyFault, some ⟨.ok, 0#8⟩, []) := by decide

/-- PUSH `0x13` into an empty buffer (R95's example). -/
theorem test_step_push :
    afterStep (fun t => (t.ibuf[0], t.icnt, t.err, t.rsp)) (presented 0x113#11 0 0 false) =
      some (0x13#8, 1, .ok, some ⟨.ok, 0#8⟩) := by decide

/-- The ninth and the tenth PUSH: the byte is dropped, `ICNT` is 9 (section 3.8, rows 9 and 13). -/
theorem test_step_push_overflow :
    afterStep (fun t => (t.ibuf, t.icnt)) (presented 0x1AA#11 8 0 false) = some (plainBytes, 9) ∧
    afterStep (fun t => (t.ibuf, t.icnt)) (presented 0x1AA#11 9 0 false) = some (plainBytes, 9) := by decide

/-- LOADKEY of the section 1 key (R133's example): busy, no key, no response yet, `ERR` as it was. -/
theorem test_step_loadkey :
    afterStep (fun t => (t.c, t.d, t.phase, status t, t.rsp)) { presented 0x200#11 8 0 true with ibuf := keyBytes } =
      some (0xF0CCAAF#28, 0x556678F#28, .ks, 0xB000#16, none) := by decide +kernel

/-- LOADKEY with seven bytes destroys the key (section 3.8, rows 7 and 17). -/
theorem test_step_loadkey_fault :
    afterStep (fun t => (status t, t.icnt, t.rsp, t.ocnt)) (presented 0x200#11 7 8 true) =
      some (0x0808#16, 0, some ⟨.fault .invalidKeyError, 0#8⟩, 8) := by decide +kernel

/-- ENC of the section 1 block (R174's example). -/
theorem test_step_enc :
    afterStep (fun t => (t.l, t.r, t.phase, t.mode, t.rsp)) (presented 0x300#11 8 0 true) =
      some (0xCC00CCFF#32, 0xF0AAF0AA#32, .rnd, .encrypt, none) := by decide +kernel

/-- ENC without a key reports 4, not 3, with three bytes pushed (R228). -/
theorem test_step_enc_fault :
    afterStep (fun t => (status t, t.rsp)) (presented 0x300#11 3 0 false) =
      some (0x2000#16, some ⟨.fault .noKeyFault, 0#8⟩) ∧
    afterStep (fun t => (status t, t.rsp)) (presented 0x300#11 9 0 true) =
      some (0x5800#16, some ⟨.fault .blockLengthFault, 0#8⟩) := by decide +kernel

/-- DEC of the section 1 ciphertext (R175's example). -/
theorem test_step_dec :
    afterStep (fun t => (t.l, t.r, t.phase, t.mode, t.rsp)) { presented 0x400#11 8 0 true with ibuf := cipherBytes } =
      some (0x0A4CD995#32, 0x43423234#32, .rnd, .decrypt, none) := by decide +kernel

/-- DEC of seven bytes (section 3.8, row 11). -/
theorem test_step_dec_fault :
    afterStep (fun t => (status t, t.rsp)) (presented 0x400#11 7 0 true) =
      some (0x5000#16, some ⟨.fault .invalidInputError, 0#8⟩) := by decide +kernel

/-- The first and the last POP of a result (R97's example; section 3.7, row 9). -/
theorem test_step_pop :
    afterStep (fun t => (t.ocnt, t.rsp)) (presented 0x500#11 0 8 true) = some (7, some ⟨.ok, 0x85#8⟩) ∧
    afterStep (fun t => (t.ocnt, t.rsp)) (presented 0x500#11 0 1 true) = some (0, some ⟨.ok, 0x05#8⟩) := by decide

/-- POP with nothing to pop (section 3.8, row 3). -/
theorem test_step_pop_fault :
    afterStep (fun t => (status t, t.rsp)) (presented 0x500#11 0 0 false) =
      some (0x3000#16, some ⟨.fault .outputEmptyFault, 0#8⟩) := by decide +kernel

/-- The reserved words keep the pushed bytes (section 3.8, rows 4 and 5; R225). -/
theorem test_step_reserved :
    afterStep (fun t => (status t, t.rsp)) (presented 0x6AB#11 3 0 false) =
      some (0x2830#16, some ⟨.fault .illegalCommand, 0#8⟩) ∧
    afterStep (fun t => (status t, t.rsp)) (presented 0x700#11 3 0 false) =
      some (0x2830#16, some ⟨.fault .illegalCommand, 0#8⟩) := by decide +kernel

/-- Key-schedule micro-step 1 (section 1.1, rows 0 and 1). -/
theorem test_step_key_round :
    afterStep (fun t => (t.c, t.d, t.k[0], t.rndctr, t.phase)) (scheduling 0 []) =
      some (0xE19955F#28, 0xAACCF1E#28, 0x1B02EFFC7072#48, 1, .ks) := by decide +kernel

/-- Round micro-step 1 (section 1.1, row 1). -/
theorem test_step_cipher_round :
    afterStep (fun t => (t.l, t.r, t.rndctr, t.phase)) (ciphering .encrypt 0 []) =
      some (0xF0AAF0AA#32, 0xEF4A6544#32, 1, .rnd) := by decide +kernel

/-- The final micro-step (section 1.1, the final swap). -/
theorem test_step_final :
    afterStep (fun t => (t.obuf, t.ocnt, t.phase, t.rsp))
      { ciphering .encrypt 16 [] with l := 0x43423234#32, r := 0x0A4CD995#32 } =
      some (cipherBytes, 8, .idle, some ⟨.ok, 0#8⟩) := by decide +kernel

/-- The host stops at the fault of an ENC without a key and issues no POP, so that the unread output stays (R204; code 4 of
section 3.8, row 1); and it takes the data byte of a POP. -/
theorem test_drive :
    (drive [0x300#11, 0x500#11] (counts 8 8 false)).1.ocnt = 8 ∧
    (match (drive [0x300#11, 0x500#11] (counts 8 8 false)).2 with
      | .error e => e = .coreFault .noKeyFault
      | .ok _ => False) ∧
    (match (drive [0x500#11] (counts 0 8 false)).2 with
      | .error _ => False
      | .ok bytes => bytes = [0x85#8]) := by
  refine ⟨rfl, rfl, rfl⟩

/-- Reset in the middle of an operation (R250, R251), with a command waiting behind it. -/
theorem test_step_reset :
    afterStep (fun t => (status t, t.rsp, t.inputs)) (ciphering .decrypt 7 [.reset, .command 0x113#11]) =
      some (0x0000#16, none, [.command 0x113#11]) := by decide +kernel

/-- The combinations of U12 have no step. -/
theorem test_step_stuck : step { scheduling 0 [] with keyValid := true } = .fault .unreachableSequencer := rfl

/-- From reset, the host's words run at once. -/
theorem test_fetch_word_after_reset :
    afterStep (fun t => t.icnt) (State.reset.withFetchWord 16 0x113) = some 1 ∧
    afterStep (fun t => t.err) (State.reset.withFetchWord 16 0x200) = some (.fault .invalidKeyError) := by decide

/-! ### Witnesses: the hypotheses of the obligations can be met -/

/-- The ends of the ranges in the encoding statements. -/
theorem witness_DecodeAndEncodeAgree :
    Instr.wellFormed (.push 0xFF#8) = true ∧ opField 0x1FF#11 = 0b001#3 ∧ opField 0x2FF#11 ≠ 0b001#3 ∧
    (2048 : Nat) ≤ 2048 := by decide

theorem witness_WordDecodesByOpFieldAlone :
    opField 0x000#11 = opField 0x0FF#11 ∧ opField 0x000#11 ≠ 0b001#3 ∧ opField 0x700#11 = opField 0x7FF#11 ∧
    opField 0x700#11 ≠ 0b001#3 ∧ opField 0x100#11 = 0b001#3 ∧ opField 0x1FF#11 = 0b001#3 := by decide

/-- A word of each opcode, with all the other bits 0 and all of them 1 (the first clause of each command's statement). -/
theorem witness_opcode_clauses :
    (opField 0x000#11 = 0b000#3 ∧ opField 0x0FF#11 = 0b000#3) ∧
    (opField 0x100#11 = 0b001#3 ∧ opField 0x1FF#11 = 0b001#3) ∧
    (opField 0x200#11 = 0b010#3 ∧ opField 0x2FF#11 = 0b010#3) ∧
    (opField 0x300#11 = 0b011#3 ∧ opField 0x3FF#11 = 0b011#3) ∧
    (opField 0x400#11 = 0b100#3 ∧ opField 0x4FF#11 = 0b100#3) ∧
    (opField 0x500#11 = 0b101#3 ∧ opField 0x5FF#11 = 0b101#3) ∧
    (opField 0x600#11 = 0b110#3 ∨ opField 0x600#11 = 0b111#3) ∧
    (opField 0x7FF#11 = 0b110#3 ∨ opField 0x7FF#11 = 0b111#3) := by decide

theorem witness_PseudoCommandsExpand : keyBytes.toList.length = 8 := by decide

theorem witness_StepRunsThePresentedCommand :
    (presented 0x7FF#11 8 0 true).phase = .idle ∧
    (presented 0x7FF#11 8 0 true).inputs = .command 0x7FF#11 :: [] := ⟨rfl, rfl⟩

theorem witness_FetchedWordRuns :
    decodeTableWord 16 0x000 = some .nop ∧ decodeTableWord 16 0x7FF = some .reserved111 ∧
    decodeTableWord 8 0x7FF = some .nop := by decide

theorem scheduling_inv (n : Fin 17) (inputs : List HostEvent) (h : n.val ≤ 15) : ControlInv (scheduling n inputs) :=
  ⟨fun h1 => (nomatch h1), fun _ => ⟨rfl, h⟩⟩

theorem ciphering_inv (m : Mode) (n : Fin 17) (inputs : List HostEvent) : ControlInv (ciphering m n inputs) :=
  ⟨fun _ => rfl, fun h1 => nomatch h1⟩

theorem counts_inv (i : Fin 10) (o : Fin 9) (v : Bool) : ControlInv (counts i o v) :=
  ⟨fun h1 => (nomatch h1), fun h1 => nomatch h1⟩

/-- A waiting command at the first and the last micro-step of both operations; behind the last one the core is idle. -/
theorem witness_CommandWaitsWhileBusy :
    (∀ n : Fin 17, n = 0 ∨ n = 15 → ControlInv (scheduling n [.command 0x000#11]) ∧
      (scheduling n [.command 0x000#11]).phase ≠ .idle ∧
      (scheduling n [.command 0x000#11]).inputs = .command 0x000#11 :: []) ∧
    (∀ n : Fin 17, n = 0 ∨ n = 16 → ControlInv (ciphering .encrypt n [.command 0x000#11]) ∧
      (ciphering .encrypt n [.command 0x000#11]).phase ≠ .idle ∧
      (ciphering .encrypt n [.command 0x000#11]).inputs = .command 0x000#11 :: []) ∧
    afterStep State.phase (scheduling 15 [.command 0x000#11]) = some .idle ∧
    afterStep State.phase (ciphering .encrypt 16 [.command 0x000#11]) = some .idle := by
  refine ⟨fun n hn => ⟨scheduling_inv n _ ?_, by simp [scheduling], rfl⟩,
    fun n _ => ⟨ciphering_inv _ n _, by simp [ciphering], rfl⟩, rfl, rfl⟩
  rcases hn with rfl | rfl <;> decide

theorem witness_ResetCoreWaitsForTheHost : idleState.phase = .idle ∧ idleState.inputs = [] := ⟨rfl, rfl⟩

/-- A reset at an idle core, and in the middle of each operation. -/
theorem witness_ResetEdgeFromEveryState :
    ({ idleState with inputs := [.reset] } : State).inputs = .reset :: [] ∧
    (scheduling 7 [.reset, .quiet]).inputs = .reset :: [.quiet] ∧
    (ciphering .decrypt 16 [.reset]).inputs = .reset :: [] := ⟨rfl, rfl, rfl⟩

/-- Two states that differ where `STATUS` does not look. -/
theorem witness_StatusFields :
    ((scheduling 0 []).phase = .idle ↔ ({ scheduling 9 [] with phase := .rnd } : State).phase = .idle) ∧
    (scheduling 0 []).keyValid = (scheduling 9 []).keyValid ∧ (scheduling 0 []).err = (scheduling 9 []).err ∧
    (scheduling 0 []).icnt = (scheduling 9 []).icnt ∧ (scheduling 0 []).ocnt = (scheduling 9 []).ocnt := by decide

theorem witness_PushAppendsOrRemembersOverflow :
    (counts 0 0 false).icnt.val ≤ 7 ∧ (counts 7 0 false).icnt.val ≤ 7 ∧ ¬ (counts 8 0 false).icnt.val ≤ 7 ∧
    ¬ (counts 9 0 false).icnt.val ≤ 7 := by decide

theorem witness_PopReturnsTheNextByte :
    (counts 0 1 false).ocnt.val ≠ 0 ∧ (counts 0 8 false).ocnt.val ≠ 0 ∧ (counts 0 0 false).ocnt.val = 0 := by decide

theorem witness_PopReturnsTheNextByte_loadkey :
    (∃ t, exec .loadkey (counts 8 8 true) = .next t) ∧ ∃ t, exec .loadkey (counts 7 8 true) = .next t :=
  ⟨⟨_, rfl⟩, ⟨_, rfl⟩⟩

theorem witness_LoadkeyAcceptsExactlyEightBytes :
    (counts 8 0 false).icnt = 8 ∧ (counts 7 0 false).icnt ≠ 8 ∧ (counts 9 0 true).icnt ≠ 8 ∧
    (counts 0 0 true).icnt ≠ 8 := by decide

theorem witness_EncChecksThenStartsTheRounds :
    (counts 8 0 false).keyValid = false ∧
    ((counts 7 0 true).keyValid = true ∧ (counts 7 0 true).icnt ≠ 8) ∧
    ((counts 9 0 true).keyValid = true ∧ (counts 9 0 true).icnt ≠ 8) ∧
    ((counts 8 0 true).keyValid = true ∧ (counts 8 0 true).icnt = 8) := by decide

/-- The same states meet the clauses for DEC. -/
theorem witness_DecChecksThenStartsTheRounds :
    (counts 0 0 false).keyValid = false ∧
    ((counts 0 0 true).keyValid = true ∧ (counts 0 0 true).icnt ≠ 8) ∧
    ((counts 9 0 true).keyValid = true ∧ (counts 9 0 true).icnt ≠ 8) ∧
    ((counts 8 0 true).keyValid = true ∧ (counts 8 0 true).icnt = 8) := by decide

theorem witness_ReservedWordsRaiseIllegalCommand :
    (Instr.reserved110 = .reserved110 ∨ Instr.reserved110 = .reserved111) ∧
    (Instr.reserved111 = .reserved110 ∨ Instr.reserved111 = .reserved111) := ⟨.inl rfl, .inr rfl⟩

/-- A command that raises each of the six faults. -/
theorem witness_EveryFaultIsPrecise :
    ∀ p ∈ [(Instr.loadkey, counts 7 8 true, CmdFault.invalidKeyError), (.dec, counts 9 0 true, .invalidInputError),
      (.enc, counts 0 0 true, .blockLengthFault), (.enc, counts 8 0 false, .noKeyFault),
      (.reserved111, counts 8 0 true, .illegalCommand), (.pop, counts 8 0 true, .outputEmptyFault)],
    p.2.1.rsp = none ∧ ∃ t, exec p.1 p.2.1 = .next t ∧ t.rsp = some ⟨.fault p.2.2, 0x00#8⟩ := by
  simp only [List.forall_mem_cons]
  refine ⟨⟨rfl, _, rfl, rfl⟩, ⟨rfl, _, rfl, rfl⟩, ⟨rfl, _, rfl, rfl⟩, ⟨rfl, _, rfl, rfl⟩, ⟨rfl, _, rfl, rfl⟩,
    ⟨rfl, _, rfl, rfl⟩, by simp⟩

/-- Each command completes its accepting step with its own effect. -/
theorem witness_CommandFrames :
    (∃ t, exec .nop (counts 0 0 false) = .next t) ∧ (∃ t, exec (.push 1#8) (counts 7 0 false) = .next t) ∧
    (∃ t, exec .loadkey (counts 8 0 false) = .next t) ∧ (∃ t, exec .enc (counts 8 0 true) = .next t) ∧
    (∃ t, exec .dec (counts 8 0 true) = .next t) ∧ (∃ t, exec .pop (counts 0 1 true) = .next t) ∧
    (∃ t, exec .reserved110 (counts 0 0 true) = .next t) :=
  ⟨⟨_, rfl⟩, ⟨_, rfl⟩, ⟨_, rfl⟩, ⟨_, rfl⟩, ⟨_, rfl⟩, ⟨_, rfl⟩, ⟨_, rfl⟩⟩

theorem witness_KeyScheduleMicroStep :
    ∀ n : Fin 16, n = 0 ∨ n = 15 → (scheduling n.castSucc []).phase = .ks ∧
      (scheduling n.castSucc []).keyValid = false ∧ (scheduling n.castSucc []).rndctr.val = n.val ∧
      rstPin (scheduling n.castSucc []) = false := fun _ _ => ⟨rfl, rfl, rfl, rfl⟩

/-- The halves of a key at the start of its schedule and before its last micro-step. -/
theorem witness_KeyScheduleMicroStep_halves :
    ∀ n : Fin 16, n = 0 ∨ n = 15 → ∃ s : State, s.phase = .ks ∧ s.keyValid = false ∧ s.rndctr.val = n.val ∧
      rstPin s = false ∧ s.c = halfAfter (keyC0 0#64) n.val ∧ s.d = halfAfter (keyD0 0#64) n.val :=
  fun n _ => ⟨{ scheduling n.castSucc [] with c := halfAfter (keyC0 0#64) n.val, d := halfAfter (keyD0 0#64) n.val },
    rfl, rfl, rfl, rfl, rfl, rfl⟩

theorem witness_RoundMicroStep :
    ∀ n : Fin 16, n = 0 ∨ n = 15 → ∀ m : Mode, (ciphering m n.castSucc []).phase = .rnd ∧
      (ciphering m n.castSucc []).keyValid = true ∧ (ciphering m n.castSucc []).rndctr.val = n.val ∧
      rstPin (ciphering m n.castSucc []) = false ∧ (ciphering m n.castSucc []).mode = m :=
  fun _ _ _ => ⟨rfl, rfl, rfl, rfl, rfl⟩

/-- The halves of a block before its first and before its last round. -/
theorem witness_RoundMicroStep_halves :
    ∀ n : Fin 16, n = 0 ∨ n = 15 → ∃ s : State, s.phase = .rnd ∧ s.keyValid = true ∧ s.rndctr.val = n.val ∧
      rstPin s = false ∧ (s.l, s.r) = halvesAfter s.k s.mode (startHalves 0#64) n.val :=
  fun n _ => ⟨{ ciphering .decrypt n.castSucc [] with
      l := (halvesAfter (ciphering .decrypt 0 []).k .decrypt (startHalves 0#64) n.val).1
      r := (halvesAfter (ciphering .decrypt 0 []).k .decrypt (startHalves 0#64) n.val).2 }, rfl, rfl, rfl, rfl, rfl⟩

theorem witness_FinalMicroStep :
    (ciphering .decrypt 16 []).phase = .rnd ∧ (ciphering .decrypt 16 []).keyValid = true ∧
    (ciphering .decrypt 16 []).rndctr.val = 16 ∧ rstPin (ciphering .decrypt 16 []) = false := ⟨rfl, rfl, rfl, rfl⟩

/-- Any round is one (here the first of section 1.1). -/
theorem witness_RoundIsUndoneByTheSameSubkey :
    round (0xCC00CCFF#32, 0xF0AAF0AA#32) 0x1B02EFFC7072#48 = (0xF0AAF0AA#32, 0xEF4A6544#32) := by decide +kernel

/-- Weak keys of section 3.3, one for each choice of constant halves. -/
theorem witness_ConstantHalvesGiveEqualSubkeys :
    (keyC0 0#64 = 0#28 ∧ keyD0 0#64 = 0#28) ∧
    (keyC0 0xFEFEFEFEFEFEFEFE#64 = BitVec.allOnes 28 ∧ keyD0 0xFEFEFEFEFEFEFEFE#64 = BitVec.allOnes 28) ∧
    (keyC0 0xE0E0E0E0F1F1F1F1#64 = BitVec.allOnes 28 ∧ keyD0 0xE0E0E0E0F1F1F1F1#64 = 0#28) := by decide +kernel

/-- Two keys of section 3.3 that differ in position 64 alone. -/
theorem witness_ParityBitsHaveNoEffect :
    (∀ i : Nat, 1 ≤ i → i ≤ 64 → i % 8 ≠ 0 → pos 0x133457799BBCDFF1#64 i = pos 0x133457799BBCDFF0#64 i) ∧
    pos 0x133457799BBCDFF1#64 64 ≠ pos 0x133457799BBCDFF0#64 64 := by
  refine ⟨fun i h1 h2 h3 => ?_, by decide⟩
  have h : ∀ j : Fin 65, j.val % 8 ≠ 0 → pos 0x133457799BBCDFF1#64 j.val = pos 0x133457799BBCDFF0#64 j.val := by
    decide +kernel
  exact h ⟨i, by omega⟩ h3

/-- A state in each phase meets the invariants and steps; the last key-schedule micro-step among them. -/
theorem witness_StepKeepsControlInvariant :
    (ControlInv (presented 0x200#11 8 0 true) ∧ ∃ t, step (presented 0x200#11 8 0 true) = .next t) ∧
    (ControlInv (scheduling 15 []) ∧ ∃ t, step (scheduling 15 []) = .next t) ∧
    (ControlInv (ciphering .encrypt 16 []) ∧ ∃ t, step (ciphering .encrypt 16 []) = .next t) :=
  ⟨⟨counts_inv 8 0 true, _, rfl⟩, ⟨scheduling_inv 15 [] (by decide), _, rfl⟩, ⟨ciphering_inv _ 16 [], _, rfl⟩⟩

/-- A loaded key, and a schedule that has just started, both with a step. -/
theorem witness_StepKeepsKeyInvariant :
    (KeyInv { presented 0x300#11 8 0 true with k := keySchedule 0#64 } ∧
      ∃ t, step { presented 0x300#11 8 0 true with k := keySchedule 0#64 } = .next t) ∧
    (KeyInv { scheduling 0 [] with c := keyC0 0#64, d := keyD0 0#64 } ∧
      ∃ t, step { scheduling 0 [] with c := keyC0 0#64, d := keyD0 0#64 } = .next t) :=
  ⟨⟨⟨fun _ => ⟨0#64, rfl⟩, fun h => (nomatch h)⟩, _, rfl⟩,
   ⟨⟨fun h => (nomatch h), fun _ => ⟨0#64, rfl, rfl, fun _ hi => absurd hi (Nat.not_lt_zero _)⟩⟩, _, rfl⟩⟩

/-- An ENC and a DEC that start on the block in `IBUF`; a block before its first and its last round and after it. -/
theorem witness_StepKeepsCipherInvariant :
    ((presented 0x300#11 8 0 true).phase = .idle ∧ (presented 0x300#11 8 0 true).inputs = .command 0x300#11 :: [] ∧
      decode 0x300#11 = .enc ∧ (presented 0x300#11 8 0 true).keyValid = true ∧ (presented 0x300#11 8 0 true).icnt = 8 ∧
      ∃ t, step (presented 0x300#11 8 0 true) = .next t) ∧
    ((presented 0x4FF#11 8 0 true).phase = .idle ∧ (presented 0x4FF#11 8 0 true).inputs = .command 0x4FF#11 :: [] ∧
      decode 0x4FF#11 = .dec ∧ (presented 0x4FF#11 8 0 true).keyValid = true ∧ (presented 0x4FF#11 8 0 true).icnt = 8 ∧
      ∃ t, step (presented 0x4FF#11 8 0 true) = .next t) ∧
    (∀ n : Fin 17, n = 0 ∨ n = 15 ∨ n = 16 → (cipheringBlock 0#64 n).phase = .rnd ∧
      CipherInv 0#64 (cipheringBlock 0#64 n) ∧ rstPin (cipheringBlock 0#64 n) = false ∧
      ∃ t, step (cipheringBlock 0#64 n) = .next t) := by
  refine ⟨⟨rfl, rfl, by decide, rfl, rfl, _, rfl⟩, ⟨rfl, rfl, by decide, rfl, rfl, _, rfl⟩,
    fun n hn => ⟨rfl, fun _ => ⟨rfl, rfl⟩, rfl, ?_⟩⟩
  rcases hn with rfl | rfl | rfl <;> exact ⟨_, rfl⟩

/-- A loaded key under an accepted ENC, and under a round. -/
theorem witness_SubkeysAreImmutable :
    (ControlInv (presented 0x300#11 8 0 true) ∧ (presented 0x300#11 8 0 true).keyValid = true ∧
      (∃ t, step (presented 0x300#11 8 0 true) = .next t) ∧ rstPin (presented 0x300#11 8 0 true) = false ∧
      ∀ w rest, (presented 0x300#11 8 0 true).phase = .idle →
        (presented 0x300#11 8 0 true).inputs = .command w :: rest → decode w ≠ .loadkey) ∧
    (ControlInv (ciphering .encrypt 15 []) ∧ (ciphering .encrypt 15 []).keyValid = true ∧
      (∃ t, step (ciphering .encrypt 15 []) = .next t) ∧ rstPin (ciphering .encrypt 15 []) = false ∧
      ∀ w rest, (ciphering .encrypt 15 []).phase = .idle →
        (ciphering .encrypt 15 []).inputs = .command w :: rest → decode w ≠ .loadkey) := by
  refine ⟨⟨counts_inv 8 0 true, rfl, ⟨_, rfl⟩, rfl, fun w rest _ h => ?_⟩,
    ⟨ciphering_inv _ 15 [], rfl, ⟨_, rfl⟩, rfl, fun w rest h => nomatch h⟩⟩
  cases h
  decide

/-- The last round is no completion; an accepted POP counts `OCNT` down. -/
theorem witness_OutputIsWrittenOnlyAtCompletion :
    ((∃ t, step (ciphering .encrypt 15 []) = .next t) ∧ rstPin (ciphering .encrypt 15 []) = false ∧
      ¬ ((ciphering .encrypt 15 []).phase = .rnd ∧ (ciphering .encrypt 15 []).rndctr.val = 16)) ∧
    ((∃ t, step (presented 0x500#11 0 8 true) = .next t ∧ t.ocnt ≠ (presented 0x500#11 0 8 true).ocnt) ∧
      rstPin (presented 0x500#11 0 8 true) = false ∧
      ¬ ((presented 0x500#11 0 8 true).phase = .rnd ∧ (presented 0x500#11 0 8 true).rndctr.val = 16)) :=
  ⟨⟨⟨_, rfl⟩, rfl, by decide⟩, ⟨⟨_, rfl, by decide⟩, rfl, by decide⟩⟩

/-- A step without a response, one with, and one that accepts a NOP. -/
theorem witness_ErrIsTheLastResponseCode :
    (rstPin (presented 0x300#11 8 0 true) = false ∧
      ∃ t, step (presented 0x300#11 8 0 true) = .next t ∧ t.rsp = none) ∧
    (rstPin (presented 0x500#11 0 0 true) = false ∧
      ∃ t, step (presented 0x500#11 0 0 true) = .next t ∧ t.rsp = some ⟨.fault .outputEmptyFault, 0#8⟩) ∧
    (rstPin (presented 0x0FF#11 0 0 true) = false ∧
      (∃ t, step (presented 0x0FF#11 0 0 true) = .next t ∧ t.rsp = some ⟨.ok, 0#8⟩) ∧
      (presented 0x0FF#11 0 0 true).phase = .idle ∧
      (presented 0x0FF#11 0 0 true).inputs = .command 0x0FF#11 :: [] ∧ decode 0x0FF#11 = .nop) :=
  ⟨⟨rfl, _, rfl, rfl⟩, ⟨rfl, _, rfl, rfl⟩, ⟨rfl, ⟨_, rfl, rfl⟩, rfl, rfl, by decide⟩⟩

/-- A state for each row of the transition table. -/
theorem witness_SequencerTransitions :
    (ControlInv (scheduling 3 [.reset]) ∧ rstPin (scheduling 3 [.reset]) = true) ∧
    (∀ n : Fin 17, n = 0 ∨ n = 14 ∨ n = 15 → ControlInv (scheduling n []) ∧ rstPin (scheduling n []) = false) ∧
    (∀ n : Fin 17, ControlInv (ciphering .decrypt n []) ∧ rstPin (ciphering .decrypt n []) = false) ∧
    (ControlInv (counts 8 0 true) ∧ rstPin (counts 8 0 true) = false ∧ (counts 8 0 true).phase = .idle ∧
      ∀ w rest, (counts 8 0 true).inputs ≠ .command w :: rest) ∧
    (∀ w, ControlInv (presented w 8 0 true) ∧ rstPin (presented w 8 0 true) = false ∧
      (presented w 8 0 true).phase = .idle ∧ (presented w 8 0 true).inputs = .command w :: []) ∧
    decode 0x200#11 = .loadkey ∧ decode 0x300#11 = .enc ∧ decode 0x400#11 = .dec ∧ decode 0x600#11 = .reserved110 := by
  refine ⟨⟨scheduling_inv 3 _ (by decide), rfl⟩, fun n hn => ⟨scheduling_inv n _ ?_, rfl⟩,
    fun n => ⟨ciphering_inv _ n _, rfl⟩, ⟨counts_inv 8 0 true, rfl, rfl, fun w rest h => nomatch h⟩,
    fun w => ⟨counts_inv 8 0 true, rfl, rfl, rfl⟩, by decide⟩
  rcases hn with rfl | rfl | rfl <;> decide

/-- Operations that have all their micro-steps to go, and one; with a command waiting. -/
theorem witness_RunningOperationCompletes :
    (ControlInv (scheduling 0 []) ∧ NoReset (scheduling 0 []) ∧ 15 < microStepsLeft (scheduling 0 [])) ∧
    (ControlInv (ciphering .encrypt 16 [.command 0x000#11]) ∧ NoReset (ciphering .encrypt 16 [.command 0x000#11]) ∧
      0 < microStepsLeft (ciphering .encrypt 16 [.command 0x000#11])) :=
  ⟨⟨scheduling_inv 0 [] (by decide), fun _ h => (nomatch h), by decide⟩,
   ⟨ciphering_inv _ 16 _, fun e h => by rw [List.mem_singleton.mp h]; decide, by decide⟩⟩

/-- A presented command with another waiting behind it. -/
theorem witness_MicroStepsRefineTheCommand :
    ({ counts 8 0 true with inputs := [.command 0x300#11, .command 0x500#11] } : State).phase = .idle ∧
    Presents { counts 8 0 true with inputs := [.command 0x300#11, .command 0x500#11] } 0x300#11
      [.command 0x500#11] :=
  ⟨rfl, rfl, fun _ h => ⟨0x500#11, List.mem_singleton.mp h⟩⟩

theorem witness_CommandListsRunAtCommandLevel :
    ({ counts 8 0 true with inputs := [.command 0x300#11, .command 0x500#11] } : State).phase = .idle ∧
    ({ counts 8 0 true with inputs := [.command 0x300#11, .command 0x500#11] } : State).inputs =
      [0x300#11, 0x500#11].map HostEvent.command := ⟨rfl, rfl⟩

/-- A command with micro-steps between, and the ends of the range of `n`. -/
theorem witness_OneResponsePerCommand :
    (presented 0x300#11 8 0 true).phase = .idle ∧ Presents (presented 0x300#11 8 0 true) 0x300#11 [] ∧
    (0 < 1 ∧ 1 < commandSteps (decode 0x300#11) (presented 0x300#11 8 0 true)) ∧
    (0 < 17 ∧ 17 < commandSteps (decode 0x300#11) (presented 0x300#11 8 0 true)) ∧
    (0 < 16 ∧ 16 < commandSteps (decode 0x200#11) (presented 0x200#11 8 0 true)) :=
  ⟨rfl, ⟨rfl, fun _ h => nomatch h⟩, by decide, by decide, by decide⟩

/-- Two states with the same control and different data, pushing different bytes. -/
theorem witness_ControlIsIndependentOfData :
    SameControl (presented 0x113#11 0 8 true) { presented 0x1FF#11 0 8 true with obuf := plainBytes, l := 1#32 } :=
  ⟨rfl, rfl, rfl, rfl, rfl, rfl, rfl, rfl, rfl, rfl⟩

/-- A POP with one and with eight unread bytes. -/
theorem witness_OneResponsePerCommand_pop :
    decode 0x500#11 = .pop ∧ Presents (presented 0x500#11 0 1 true) 0x500#11 [] ∧
    (presented 0x500#11 0 1 true).ocnt.val ≠ 0 ∧ Presents (presented 0x500#11 0 8 true) 0x500#11 [] ∧
    (presented 0x500#11 0 8 true).ocnt.val ≠ 0 :=
  ⟨by decide, ⟨rfl, fun _ h => nomatch h⟩, by decide, ⟨rfl, fun _ h => nomatch h⟩, by decide⟩

theorem witness_DecryptionUndoesEncryption : (0 : Nat) ≤ 16 ∧ (16 : Nat) ≤ 16 := by decide

theorem witness_PaddingAppendsOneToEightBytes :
    ([] : List Byte).length % 8 = 0 ∧ (List.replicate 16 0x41#8).length % 8 = 0 := by decide

theorem witness_KeyTransactionLoadsTheSchedule : (counts 0 8 false).icnt = 0 := rfl

/-- An empty buffer and a key; then no key, and a key with one byte and with more than eight already pushed. -/
theorem witness_BlockTransactionReturnsTheBlock :
    ((counts 0 8 true).phase = .idle ∧ (counts 0 8 true).icnt = 0 ∧ (counts 0 8 true).keyValid = true) ∧
    ((counts 0 8 false).phase = .idle ∧ ((counts 0 8 false).keyValid = false ∨ (counts 0 8 false).icnt ≠ 0)) ∧
    ((counts 1 8 true).phase = .idle ∧ ((counts 1 8 true).keyValid = false ∨ (counts 1 8 true).icnt ≠ 0)) ∧
    ((counts 9 8 true).phase = .idle ∧ ((counts 9 8 true).keyValid = false ∨ (counts 9 8 true).icnt ≠ 0)) := by
  decide

theorem witness_MessageTransactionReturnsEveryBlock :
    (counts 0 0 false).phase = .idle ∧ (counts 0 0 false).icnt = 0 := ⟨rfl, rfl⟩

theorem witness_ConstructTakesExactlyEightBytes :
    (List.replicate 7 0#8).length ≠ 8 ∧ (List.replicate 9 0#8).length ≠ 8 ∧ ([] : List Byte).length ≠ 8 ∧
    (counts 0 8 true).phase = .idle ∧ (counts 0 8 true).icnt = 0 := by decide

/-- The lengths 0, 7, 9 and 15 of spec/95_test_vectors.md section 3.9. -/
theorem witness_DecryptRefusesBrokenLengths :
    ∀ n ∈ [0, 7, 9, 15],
      (List.replicate n 0x41#8).length = 0 ∨ (List.replicate n 0x41#8).length % 8 ≠ 0 := by decide

theorem witness_MessageRoundTrip :
    (List.replicate 7 0x41#8).length % 8 ≠ 0 ∧ (List.replicate 1 0x41#8).length % 8 ≠ 0 ∧
    ([] : List Byte).length % 8 = 0 ∧ (List.replicate 8 0x41#8).length % 8 = 0 := by decide

theorem witness_BlocksAreIndependent :
    ([] : List Byte).length % 8 = 0 ∧ (List.replicate 8 0x41#8).length % 8 = 0 := by decide

end Sys2Proof.Tests
end

/-! PROOFS. The statements on the state (spec/10_state.md): `STATUS`, reset, the invariants of R32, `ERR`, `OBUF`, and
that control does not depend on data. First the facts that several of them use, then one part per subject. -/

namespace Sys2Proof.Machine

/-! ### What a step can do -/

theorem inputComplete_iff (s : State) : inputComplete s = true ↔ s.icnt = 8 := by
  simp only [inputComplete, beq_iff_eq]

/-- `exec_cases` for a known answer: what the state after an accepting step is. -/
theorem exec_next_cases {i : Instr} {s t : State} (h : exec i s = .next t) :
    (i = .nop ∧ t = respond .ok 0#8 s) ∨
    (∃ b, i = .push b ∧ t = succeed 0#8 (pushByte b s)) ∨
    (i = .loadkey ∧ s.icnt = 8 ∧ t = startKeySchedule s) ∨
    (∃ m, (i = .enc ∧ m = .encrypt ∨ i = .dec ∧ m = .decrypt) ∧ s.keyValid = true ∧ s.icnt = 8 ∧
      t = startCipher m s) ∨
    (∃ hocnt : s.ocnt.val ≠ 0, i = .pop ∧ t = succeed (nextOutput s hocnt) (consumeOutput s)) ∨
    (∃ f, i ≠ .nop ∧ t = takeFault f s) := by
  rcases exec_cases i s with ⟨hi, he⟩ | ⟨b, hi, he⟩ | ⟨hi, hc, he⟩ | ⟨m, hi, hk, hc, he⟩ | ⟨ho, hi, he⟩ |
    ⟨f, hi, -, -, -, -, he⟩ <;> obtain rfl : _ = t := Host.Outcome.next.inj (he.symm.trans h)
  · exact .inl ⟨hi, rfl⟩
  · exact .inr (.inl ⟨b, hi, rfl⟩)
  · exact .inr (.inr (.inl ⟨hi, (inputComplete_iff s).mp hc, rfl⟩))
  · exact .inr (.inr (.inr (.inl ⟨m, hi, hk, (inputComplete_iff s).mp hc, rfl⟩)))
  · exact .inr (.inr (.inr (.inr (.inl ⟨ho, hi, rfl⟩))))
  · exact .inr (.inr (.inr (.inr (.inr ⟨f, hi, rfl⟩))))

/-- The step of an idle core that is presented a command is the command's accepting step (spec/30_encoding.md R72). -/
theorem step_accept {s : State} {w : CmdWord} {rest : List HostEvent} (hp : s.phase = .idle)
    (h : s.inputs = .command w :: rest) : step s = exec (decode w) (beginStep s) := by
  simp only [step, nextAction_accept hp h]

/-- ENC and DEC with a key and a complete block start the rounds (spec/44_blockcipher.md R174, R175). -/
theorem exec_startCipher {i : Instr} {m : Mode} {s : State} (hi : i = .enc ∧ m = .encrypt ∨ i = .dec ∧ m = .decrypt)
    (hk : s.keyValid = true) (hc : s.icnt = 8) : exec i s = .next (startCipher m s) := by
  have hc' : inputComplete s = true := (inputComplete_iff s).mpr hc
  rcases hi with ⟨rfl, rfl⟩ | ⟨rfl, rfl⟩
  · simp [exec, execEnc, hk, hc']
  · simp [exec, execDec, hk, hc']

/-- The key that is there after a fault was there before it. -/
theorem key_kept_of_takeFault {f : CmdFault} {s : State} (h : (takeFault f s).keyValid = true) :
    s.keyValid = true ∧ (takeFault f s).k = s.k := by
  rw [takeFault_keyValid] at h
  split at h
  · cases h
  · next hf => exact ⟨h, takeFault_k f s hf⟩

@[simp] theorem keyMicroStep_obuf (i : Fin 16) (s : State) : (keyMicroStep i s).obuf = s.obuf := by
  unfold keyMicroStep; split <;> rfl
@[simp] theorem keyMicroStep_ocnt (i : Fin 16) (s : State) : (keyMicroStep i s).ocnt = s.ocnt := by
  unfold keyMicroStep; split <;> rfl

/-- The code 7 is no response code (spec/10_state.md R32). -/
theorem RspCode.code_ne_seven (c : RspCode) : c.code ≠ 7#3 := by
  rcases c with _ | f
  · decide
  · cases f <;> decide

/-! ### `STATUS` and reset -/

/-- `STATUS` shows `PHASE` through `BUSY` alone (spec/10_state.md R33). -/
theorem busy_eq_of_idle_iff {s t : State} (h : s.phase = .idle ↔ t.phase = .idle) : busy s = busy t := by
  rw [Bool.eq_iff_iff]
  simpa only [busy, bne_iff_ne] using not_congr h

/-- Two states that agree on what `STATUS` shows have the same `STATUS` (spec/10_state.md R33). -/
theorem status_congr {s t : State} (hp : s.phase = .idle ↔ t.phase = .idle) (hk : s.keyValid = t.keyValid)
    (he : s.err = t.err) (hi : s.icnt = t.icnt) (ho : s.ocnt = t.ocnt) : status s = status t := by
  simp only [status, busy_eq_of_idle_iff hp, hk, he, hi, ho]

/-- `STATUS`, field by field, as the bit sequences that make it up (spec/10_state.md R33). -/
theorem status_fields (s : State) :
    (status s).getLsbD 15 = busy s ∧ (status s).getLsbD 14 = s.keyValid ∧
    (status s).extractLsb' 11 3 = s.err.code ∧ (status s).extractLsb' 8 3 = 0#3 ∧
    (status s).extractLsb' 4 4 = BitVec.ofNat 4 s.icnt.val ∧
    (status s).extractLsb' 0 4 = BitVec.ofNat 4 s.ocnt.val := by
  unfold status
  refine ⟨?_, ?_, ?_, ?_, ?_, BitVec.extractLsb'_append_eq_right⟩
  · simp only [BitVec.getLsbD_append, BitVec.getLsbD_ofBool, Nat.reduceLT, if_false, Nat.reduceSub, decide_true,
      Bool.true_and]
  · simp only [BitVec.getLsbD_append, BitVec.getLsbD_ofBool, Nat.reduceLT, if_false, if_true, Nat.reduceSub,
      decide_true, Bool.true_and]
  · iterate 3 rw [BitVec.extractLsb'_append_eq_of_le (by decide)]
    exact BitVec.extractLsb'_append_eq_right
  · iterate 2 rw [BitVec.extractLsb'_append_eq_of_le (by decide)]
    exact BitVec.extractLsb'_append_eq_right
  · rw [BitVec.extractLsb'_append_eq_of_le (by decide)]
    exact BitVec.extractLsb'_append_eq_right

/-- A counter below 16 is read back from its four bits. -/
theorem toNat_ofNat_four {n : Nat} (h : n < 16) : (BitVec.ofNat 4 n).toNat = n := by
  rw [BitVec.toNat_ofNat, Nat.mod_eq_of_lt h]

/-- Settles O12, from the bit sequences that make up `STATUS`. -/
theorem statusFields : Obligations.StatusFields := by
  refine ⟨fun s => ?_, fun s t => status_congr⟩
  obtain ⟨hbusy, hkey, herr, hzero, hicnt, hocnt⟩ := status_fields s
  have hi := s.icnt.isLt
  have ho := s.ocnt.isLt
  refine ⟨?_, hkey, herr, hzero, ?_, ?_⟩
  · rw [hbusy, busy, bne_iff_ne]
  · rw [hicnt, toNat_ofNat_four (by omega)]
  · rw [hocnt, toNat_ofNat_four (by omega)]

/-- Settles O11: `State.reset` names these values, and `STATUS` is computed from them alone. -/
theorem resetStateControlRegisters : Obligations.ResetStateControlRegisters :=
  ⟨rfl, rfl, rfl, rfl, rfl, rfl, rfl, rfl⟩

/-! ### The sequencer's invariant -/

/-- An idle core meets the sequencer's invariant, whatever its other registers hold. -/
theorem controlInv_of_idle {s : State} (h : s.phase = .idle) : ControlInv s := by
  simp [ControlInv, h]

/-- A block operation that has a key meets the sequencer's invariant. -/
theorem controlInv_of_rnd {s : State} (h : s.phase = .rnd) (hk : s.keyValid = true) : ControlInv s := by
  simp [ControlInv, h, hk]

/-- A key schedule with no key and a micro-step to go meets the sequencer's invariant. -/
theorem controlInv_of_ks {s : State} (h : s.phase = .ks) (hk : s.keyValid = false) (hr : s.rndctr.val ≤ 15) :
    ControlInv s := by
  simp [ControlInv, h, hk, hr]

/-- What an idle core accepts leaves it idle or starts an operation properly. -/
theorem controlInv_of_exec {i : Instr} {s t : State} (hp : s.phase = .idle) (h : exec i s = .next t) :
    ControlInv t := by
  rcases exec_next_cases h with ⟨-, rfl⟩ | ⟨b, -, rfl⟩ | ⟨-, -, rfl⟩ | ⟨m, -, hk, -, rfl⟩ | ⟨ho, -, rfl⟩ | ⟨f, -, rfl⟩
  · exact controlInv_of_idle (by simp [hp])
  · exact controlInv_of_idle (by simp [hp])
  · exact controlInv_of_ks rfl rfl (by simp)
  · exact controlInv_of_rnd rfl hk
  · exact controlInv_of_idle (by simp [hp])
  · exact controlInv_of_idle (by simp [hp])

/-- A key-schedule micro-step ends the schedule, or leaves a micro-step to go. -/
theorem controlInv_keyMicroStep {i : Fin 16} {s : State} (hp : s.phase = .ks) (hk : s.keyValid = false) :
    ControlInv (keyMicroStep i s) := by
  by_cases hi : i.val = 15
  · rw [keyMicroStep_last i s hi]
    exact controlInv_of_idle rfl
  · rw [keyMicroStep_earlier i s hi]
    exact controlInv_of_ks hp hk (by simp only [keyRound_rndctr, Fin.val_succ]; omega)

/-- Where there is a next state, it meets the sequencer's invariant: `step` has none from the register combinations that
the invariant excludes. -/
theorem controlInv_of_step {s t : State} (h : step s = .next t) : ControlInv t := by
  cases hr : rstPin s with
  | true =>
    obtain rfl := Host.Outcome.next.inj ((step_of_rstPin s hr).symm.trans h)
    exact controlInv_of_idle rfl
  | false =>
    rcases step_cases h hr with ⟨w, rest, hp, -, he⟩ | ⟨hp, rfl, -⟩ | ⟨i, hp, hk, -, rfl⟩ | ⟨i, hp, hk, -, rfl⟩ |
      ⟨-, -, -, rfl⟩
    · exact controlInv_of_exec (s := beginStep s) hp he
    · exact controlInv_of_idle hp
    · exact controlInv_keyMicroStep hp hk
    · exact controlInv_of_rnd hp hk
    · exact controlInv_of_idle rfl

/-- Settles O39: by the kinds of step; the bounds of the counters hold by type. -/
theorem stepKeepsControlInvariant : Obligations.StepKeepsControlInvariant := by
  intro s t _ h
  have hi := t.icnt.isLt
  have ho := t.ocnt.isLt
  have hr := t.rndctr.isLt
  exact ⟨controlInv_of_step h, by omega, by omega, by omega, t.err.code_ne_seven⟩

/-! ### The key's invariant -/

/-- The halves and the subkeys written so far are those of the master key `X` after `n` rounds of its schedule: what
`KeyInv` says of a running one (spec/42_keyschedule.md R131, R134). -/
def OnSchedule (X : Block) (n : Nat) (s : State) : Prop :=
  s.c = halfAfter (keyC0 X) n ∧ s.d = halfAfter (keyD0 X) n ∧
    ∀ j : Fin 16, j.val < n → s.k[j.val] = subkeyAt X (j.val + 1)

theorem keyInv_iff (s : State) :
    KeyInv s ↔ (s.keyValid = true → ∃ X, s.k = keySchedule X) ∧ (s.phase = .ks → ∃ X, OnSchedule X s.rndctr.val s) :=
  Iff.rfl

/-- An accepted LOADKEY starts on the schedule of the key in `IBUF`. -/
theorem onSchedule_startKeySchedule (s : State) : OnSchedule (inputBlock s) 0 (startKeySchedule s) :=
  ⟨rfl, rfl, fun _ hj => absurd hj (Nat.not_lt_zero _)⟩

/-- One micro-step is one more round of the same schedule (spec/42_keyschedule.md R134). -/
theorem OnSchedule.keyRound {X : Block} {i : Fin 16} {s : State} (h : OnSchedule X i.val s) :
    OnSchedule X (i.val + 1) (keyRound i s) := by
  obtain ⟨hc, hd, hk⟩ := h
  refine ⟨by rw [keyRound_c, hc, halfAfter_succ], by rw [keyRound_d, hd, halfAfter_succ], fun j hj => ?_⟩
  simp only [keyRound_k, Vector.getElem_set]
  split
  · next hij => rw [hc, hd, ← hij, ← halfAfter_succ, ← halfAfter_succ, subkeyAt]
  · next hij => exact hk j (by omega)

/-- After sixteen rounds the subkey store is the whole schedule. -/
theorem OnSchedule.k_eq {X : Block} {s : State} (h : OnSchedule X 16 s) : s.k = keySchedule X := by
  obtain ⟨-, -, hk⟩ := h
  refine Vector.ext fun j hj => ?_
  exact (hk ⟨j, hj⟩ hj).trans (getElem_keySchedule X ⟨j, hj⟩).symm

/-- A state without a running key schedule, whose key, if any, was there before, meets the key's invariant. -/
theorem KeyInv.of_key_kept {s t : State} (h : KeyInv s) (hp : t.phase ≠ .ks)
    (hk : t.keyValid = true → s.keyValid = true ∧ t.k = s.k) : KeyInv t := by
  refine ⟨fun hv => ?_, fun ht => absurd ht hp⟩
  obtain ⟨hs, hkt⟩ := hk hv
  rw [hkt]
  exact h.1 hs

/-- What an idle core accepts keeps the key, drops it, or starts a new schedule. -/
theorem KeyInv.of_exec {i : Instr} {s t : State} (hinv : KeyInv s) (hp : s.phase = .idle) (h : exec i s = .next t) :
    KeyInv t := by
  rcases exec_next_cases h with ⟨-, rfl⟩ | ⟨b, -, rfl⟩ | ⟨-, -, rfl⟩ | ⟨m, -, hk, -, rfl⟩ | ⟨ho, -, rfl⟩ | ⟨f, -, rfl⟩
  · exact hinv.of_key_kept (by simp [hp]) (by simp)
  · exact hinv.of_key_kept (by simp [hp]) (by simp)
  · exact ⟨fun hv => (nomatch hv), fun _ => ⟨inputBlock s, onSchedule_startKeySchedule s⟩⟩
  · exact hinv.of_key_kept (by simp) (by simp)
  · exact hinv.of_key_kept (by simp [hp]) (by simp)
  · exact hinv.of_key_kept (by simp [hp]) key_kept_of_takeFault

/-- A key-schedule micro-step goes one round on, and the sixteenth has written the whole schedule. -/
theorem KeyInv.keyMicroStep {i : Fin 16} {s : State} (hinv : KeyInv s) (hp : s.phase = .ks) (hk : s.keyValid = false)
    (hr : s.rndctr.val = i.val) : KeyInv (keyMicroStep i s) := by
  obtain ⟨X, hX⟩ := ((keyInv_iff s).mp hinv).2 hp
  rw [hr] at hX
  have hnext : OnSchedule X (i.val + 1) (keyRound i s) := hX.keyRound
  by_cases hi : i.val = 15
  · rw [keyMicroStep_last i s hi]
    rw [hi] at hnext
    exact ⟨fun _ => ⟨X, hnext.k_eq⟩, fun h => nomatch h⟩
  · rw [keyMicroStep_earlier i s hi]
    exact ⟨fun hv => (nomatch hk.symm.trans hv), fun _ => ⟨X, hnext⟩⟩

/-- Settles O40, by the kinds of step. -/
theorem stepKeepsKeyInvariant : Obligations.StepKeepsKeyInvariant := by
  intro s t hinv h
  cases hr : rstPin s with
  | true =>
    obtain rfl := Host.Outcome.next.inj ((step_of_rstPin s hr).symm.trans h)
    exact hinv.of_key_kept (by simp) (by simp)
  | false =>
    have hbegin : KeyInv (beginStep s) := hinv
    rcases step_cases h hr with ⟨w, rest, hp, -, he⟩ | ⟨-, rfl, -⟩ | ⟨i, hp, hk, hi, rfl⟩ | ⟨i, hp, -, -, rfl⟩ |
      ⟨-, -, -, rfl⟩
    · exact hbegin.of_exec hp he
    · exact hbegin
    · exact hbegin.keyMicroStep hp hk hi
    · exact hbegin.of_key_kept (by simp [hp]) (by simp)
    · exact hbegin.of_key_kept (by simp) (by simp)

/-! ### The cipher's invariant -/

/-- An accepted ENC or DEC starts on the block in `IBUF` (spec/44_blockcipher.md R174, R175). -/
theorem cipherInv_startCipher {m : Mode} {s : State} (hk : s.keyValid = true) :
    CipherInv (inputBlock s) (startCipher m s) := fun _ => ⟨hk, rfl⟩

/-- One round micro-step is one more round of the same block (spec/44_blockcipher.md R176). -/
theorem CipherInv.roundMicroStep {X : Block} {i : Fin 16} {s : State} (h : CipherInv X s) (hp : s.phase = .rnd)
    (hr : s.rndctr.val = i.val) : CipherInv X (roundMicroStep i s) := by
  intro _
  obtain ⟨hk, hlr⟩ := h hp
  rw [hr] at hlr
  refine ⟨hk, ?_⟩
  simp only [roundMicroStep_k, roundMicroStep_mode, roundMicroStep_rndctr, Fin.val_succ, halvesAfter_succ, ← hlr]
  rfl

/-- After the sixteenth round the final micro-step stores the bytes of the transformed block
(spec/44_blockcipher.md R177). -/
theorem CipherInv.obuf_finalMicroStep {X : Block} {s : State} (h : CipherInv X s) (hp : s.phase = .rnd)
    (hr : s.rndctr.val = 16) : (finalMicroStep s).obuf = bytesOfBlock (cryptBlock X s.k s.mode) := by
  obtain ⟨-, hlr⟩ := h hp
  rw [finalMicroStep_obuf, hlr, hr, cryptBlock]

/-- Settles O41: the accepting step gives the first halves, each round micro-step goes one round on, and the final one
stores the result. -/
theorem stepKeepsCipherInvariant : Obligations.StepKeepsCipherInvariant := by
  refine ⟨fun s t w rest m hp hin hi hk hc h => ?_, fun X s t hp hinv hr h => ?_⟩
  · rw [step_accept hp hin, exec_startCipher (s := beginStep s) hi hk hc] at h
    obtain rfl := Host.Outcome.next.inj h
    exact ⟨rfl, rfl, rfl, rfl, cipherInv_startCipher hk⟩
  · have hbegin : CipherInv X (beginStep s) := hinv
    rcases step_cases h hr with ⟨_, _, hp', -, -⟩ | ⟨hp', -, -⟩ | ⟨_, hp', -, -, -⟩ | ⟨i, -, -, hi, rfl⟩ |
      ⟨-, -, h16, rfl⟩
    · exact nomatch hp.symm.trans hp'
    · exact nomatch hp.symm.trans hp'
    · exact nomatch hp.symm.trans hp'
    · exact .inl ⟨by omega, hp, by simp [hi], rfl, rfl, hbegin.roundMicroStep hp hi⟩
    · exact .inr ⟨h16, rfl, rfl, hbegin.obuf_finalMicroStep hp h16⟩

/-- Settles O42: after reset the core is idle and has no key. -/
theorem resetMeetsTheInvariants : Obligations.ResetMeetsTheInvariants :=
  ⟨controlInv_of_idle rfl, ⟨fun h => (nomatch h), fun h => (nomatch h)⟩, fun _ h => nomatch h⟩

/-! ### What a step writes to `OBUF`, `OCNT` and `ERR` -/

/-- No accepting step writes `OBUF`. -/
theorem exec_obuf {i : Instr} {s t : State} (h : exec i s = .next t) : t.obuf = s.obuf := by
  rcases exec_next_cases h with ⟨-, rfl⟩ | ⟨b, -, rfl⟩ | ⟨-, -, rfl⟩ | ⟨m, -, -, -, rfl⟩ | ⟨ho, -, rfl⟩ | ⟨f, -, rfl⟩ <;>
    simp

/-- An accepting step writes `OCNT` only for a POP, which counts it down (spec/10_state.md R23). -/
theorem exec_ocnt {i : Instr} {s t : State} (h : exec i s = .next t) :
    t.ocnt = s.ocnt ∨ i = .pop ∧ t.ocnt.val ≤ s.ocnt.val := by
  rcases exec_next_cases h with ⟨-, rfl⟩ | ⟨b, -, rfl⟩ | ⟨-, -, rfl⟩ | ⟨m, -, -, -, rfl⟩ | ⟨ho, hi, rfl⟩ | ⟨f, -, rfl⟩
  · exact .inl rfl
  · exact .inl (by simp)
  · exact .inl rfl
  · exact .inl rfl
  · exact .inr ⟨hi, by simp⟩
  · exact .inl (by simp)

/-- Settles O44: the accepting steps by `exec_obuf` and `exec_ocnt`; the other steps that are left write neither. -/
theorem outputIsWrittenOnlyAtCompletion : Obligations.OutputIsWrittenOnlyAtCompletion := by
  intro s t h hr hfinal
  have unchanged : ∀ {u : State}, u.obuf = s.obuf → u.ocnt = s.ocnt → u.obuf = s.obuf ∧ u.ocnt.val ≤ s.ocnt.val ∧
      (u.ocnt ≠ s.ocnt → ∃ w rest, s.phase = .idle ∧ s.inputs = .command w :: rest ∧ decode w = .pop) :=
    fun hb ho => ⟨hb, ho ▸ le_rfl, fun hne => absurd ho hne⟩
  rcases step_cases h hr with ⟨w, rest, hp, hin, he⟩ | ⟨-, rfl, -⟩ | ⟨i, -, -, -, rfl⟩ | ⟨i, -, -, -, rfl⟩ |
    ⟨hp, -, h16, -⟩
  · rcases exec_ocnt he with ho | ⟨hpop, hle⟩
    · exact unchanged (exec_obuf (s := beginStep s) he) ho
    · exact ⟨exec_obuf (s := beginStep s) he, hle, fun _ => ⟨w, rest, hp, hin, hpop⟩⟩
  · exact unchanged rfl rfl
  · exact unchanged (by simp) (by simp)
  · exact unchanged rfl rfl
  · exact absurd ⟨hp, h16⟩ hfinal

/-- A step drives no response and keeps `ERR`, or drives one and writes its code to `ERR` (spec/10_state.md R30). -/
def ErrFollowsResponse (s t : State) : Prop :=
  (t.rsp = none ∧ t.err = s.err) ∨ ∃ r, t.rsp = some r ∧ t.err = r.err

/-- Every accepting step but a NOP's writes the code it responds, or leaves both to the operation it starts. -/
theorem errFollowsResponse_of_exec {i : Instr} {s t : State} (hi : i ≠ .nop) (hrsp : s.rsp = none)
    (h : exec i s = .next t) : ErrFollowsResponse s t := by
  rcases exec_next_cases h with ⟨hnop, -⟩ | ⟨b, -, rfl⟩ | ⟨-, -, rfl⟩ | ⟨m, -, -, -, rfl⟩ | ⟨ho, -, rfl⟩ | ⟨f, -, rfl⟩
  · exact absurd hnop hi
  · exact .inr ⟨_, rfl, rfl⟩
  · exact .inl ⟨hrsp, rfl⟩
  · exact .inl ⟨hrsp, rfl⟩
  · exact .inr ⟨_, rfl, rfl⟩
  · exact .inr ⟨_, takeFault_rsp f s, takeFault_err f s⟩

/-- A key-schedule micro-step responds and clears `ERR` when it is the last, and does neither before. -/
theorem errFollowsResponse_keyMicroStep {i : Fin 16} {s : State} (hrsp : s.rsp = none) :
    ErrFollowsResponse s (keyMicroStep i s) := by
  by_cases hi : i.val = 15
  · rw [keyMicroStep_last i s hi]
    exact .inr ⟨_, rfl, rfl⟩
  · rw [keyMicroStep_earlier i s hi]
    exact .inl ⟨hrsp, rfl⟩

/-- Every step but a reset accepts a NOP, or accepts none and `ERR` follows the response. -/
theorem step_err_cases {s t : State} (h : step s = .next t) (hr : rstPin s = false) :
    (∃ w rest, s.phase = .idle ∧ s.inputs = .command w :: rest ∧ decode w = .nop ∧
      t = respond .ok 0#8 (beginStep s)) ∨
    ((∀ w rest, s.phase = .idle → s.inputs = .command w :: rest → decode w ≠ .nop) ∧ ErrFollowsResponse s t) := by
  rcases step_cases h hr with ⟨w, rest, hp, hin, he⟩ | ⟨-, rfl, hnone⟩ | ⟨i, hp, -, -, rfl⟩ | ⟨i, hp, -, -, rfl⟩ |
    ⟨hp, -, -, rfl⟩
  · by_cases hnop : decode w = .nop
    · rw [hnop] at he
      exact .inl ⟨w, rest, hp, hin, hnop, (Host.Outcome.next.inj he).symm⟩
    · refine .inr ⟨fun w' rest' _ hin' => ?_, errFollowsResponse_of_exec (s := beginStep s) hnop rfl he⟩
      rw [hin] at hin'
      cases hin'
      exact hnop
  · exact .inr ⟨fun w rest _ hin => absurd hin (hnone w rest), .inl ⟨rfl, rfl⟩⟩
  · exact .inr ⟨fun _ _ hp' => (nomatch hp.symm.trans hp'), errFollowsResponse_keyMicroStep (s := beginStep s) rfl⟩
  · exact .inr ⟨fun _ _ hp' => (nomatch hp.symm.trans hp'), .inl ⟨rfl, rfl⟩⟩
  · exact .inr ⟨fun _ _ hp' => (nomatch hp.symm.trans hp'), .inr ⟨_, rfl, rfl⟩⟩

/-- Settles O45: a NOP responds and keeps `ERR`, and behind every other step `ERR` follows the response. -/
theorem errIsTheLastResponseCode : Obligations.ErrIsTheLastResponseCode := by
  intro s t h hr
  rcases step_err_cases h hr with ⟨w, rest, hp, hin, hnop, rfl⟩ | ⟨hnone, ⟨hrsp, herr⟩ | ⟨r, hrsp, herr⟩⟩
  · exact ⟨fun _ => rfl, fun _ _ => .inr ⟨hp, rfl, w, rest, hin, hnop⟩, fun _ _ _ _ _ => rfl⟩
  · exact ⟨fun _ => herr, fun r hsome => (nomatch hrsp.symm.trans hsome), fun _ _ _ _ _ => herr⟩
  · refine ⟨fun hn => ?_, fun r' hsome => .inl ?_, fun w rest hp hin hnop => absurd hnop (hnone w rest hp hin)⟩
    · exact nomatch hrsp.symm.trans hn
    · rw [herr, Option.some.inj (hrsp.symm.trans hsome)]

/-! ### Control does not depend on data -/

/-- The control registers after equal steps show the same `STATUS`. -/
theorem SameControl.status_eq {s t : State} (h : SameControl s t) : status s = status t := by
  obtain ⟨hicnt, hocnt, hkey, -, hphase, -, herr, -, -, -⟩ := h
  exact status_congr (by rw [hphase]) hkey herr hicnt hocnt

/-- Two words of one opcode are the same command, or two PUSHes (spec/30_encoding.md R76). -/
theorem decode_of_same_opField {w w' : CmdWord} (h : opField w = opField w') :
    decode w = decode w' ∨ ∃ b b', decode w = .push b ∧ decode w' = .push b' := by
  by_cases hpush : opField w = 0b001#3
  · exact .inr ⟨imm8Field w, imm8Field w', by simp [decode, hpush], by simp [decode, ← h, hpush]⟩
  · exact .inl (by simp only [decode, ← h, hpush, if_false])

/-- Two lists of inputs of the same kinds: both empty, or with heads of one kind and tails of the same kinds. -/
theorem same_kinds_cases {l m : List HostEvent} (h : l.map HostEvent.kind = m.map HostEvent.kind) :
    (l = [] ∧ m = []) ∨
    (∃ w w' l' m', l = .command w :: l' ∧ m = .command w' :: m' ∧ opField w = opField w' ∧
      l'.map HostEvent.kind = m'.map HostEvent.kind) ∨
    (∃ e l' m', (e = .quiet ∨ e = .reset) ∧ l = e :: l' ∧ m = e :: m' ∧
      l'.map HostEvent.kind = m'.map HostEvent.kind) := by
  rcases l with _ | ⟨e, l'⟩ <;> rcases m with _ | ⟨e', m'⟩
  · exact .inl ⟨rfl, rfl⟩
  · cases h
  · cases h
  · obtain ⟨hhead, htail⟩ := List.cons.inj h
    cases e with
    | command w =>
      cases e' with
      | command w' => exact .inr (.inl ⟨w, w', l', m', rfl, rfl, EventKind.command.inj hhead, htail⟩)
      | quiet => cases hhead
      | reset => cases hhead
    | quiet =>
      cases e' with
      | command w' => cases hhead
      | quiet => exact .inr (.inr ⟨.quiet, l', m', .inl rfl, rfl, rfl, htail⟩)
      | reset => cases hhead
    | reset =>
      cases e' with
      | command w' => cases hhead
      | quiet => cases hhead
      | reset => exact .inr (.inr ⟨.reset, l', m', .inr rfl, rfl, rfl, htail⟩)

section SameControl

variable {s t : State}

/-- The port tells both cores the same of `rst`. -/
theorem SameControl.rstPin_eq (h : SameControl s t) : rstPin s = rstPin t := by
  obtain ⟨-, -, -, -, -, -, -, hin, -, -⟩ := h
  rcases same_kinds_cases hin with ⟨hs, ht⟩ | ⟨w, w', l, m, hs, ht, -, -⟩ | ⟨e, l, m, -, hs, ht, -⟩
  · simp [rstPin, hs, ht]
  · rw [rstPin_of_command hs, rstPin_of_command ht]
  · simp [rstPin, hs, ht]

/-- What is left to present is of the same kinds, too. -/
theorem SameControl.remainingInputs_kinds (h : SameControl s t) :
    (remainingInputs s).map HostEvent.kind = (remainingInputs t).map HostEvent.kind := by
  obtain ⟨-, -, -, -, hphase, -, -, hin, -, -⟩ := h
  rcases same_kinds_cases hin with ⟨hs, ht⟩ | ⟨w, w', l, m, hs, ht, hop, htail⟩ | ⟨e, l, m, he, hs, ht, htail⟩
  · simp [remainingInputs, hs, ht]
  · by_cases hp : t.phase = .idle
    · rw [remainingInputs_accept (hphase.trans hp) hs, remainingInputs_accept hp ht, htail]
    · simp [remainingInputs, hs, ht, hphase, hp, HostEvent.kind, hop, htail]
  · rcases he with rfl | rfl <;> simpa [remainingInputs, hs, ht] using htail

theorem SameControl.beginStep (h : SameControl s t) : SameControl (beginStep s) (beginStep t) := by
  have hrem := h.remainingInputs_kinds
  obtain ⟨hicnt, hocnt, hkey, hmode, hphase, hrnd, herr, -, -, hlog⟩ := h
  exact ⟨hicnt, hocnt, hkey, hmode, hphase, hrnd, herr, hrem, rfl, hlog⟩

/-- Both sequencers choose the same action, but for the ignored bits and the byte of an accepted word. -/
theorem SameControl.nextAction (h : SameControl s t) :
    nextAction s = nextAction t ∨
    ∃ w w', nextAction s = .accept w ∧ nextAction t = .accept w' ∧ opField w = opField w' := by
  have hrst := h.rstPin_eq
  obtain ⟨-, -, hkey, -, hphase, hrnd, -, hin, -, -⟩ := h
  cases hp : t.phase with
  | idle =>
    rw [hp] at hphase
    rcases same_kinds_cases hin with ⟨hs, ht⟩ | ⟨w, w', l, m, hs, ht, hop, -⟩ | ⟨e, l, m, he, hs, ht, -⟩
    · exact .inl (by simp [Machine.nextAction, hrst, sequencerAction, hp, hphase, hs, ht])
    · exact .inr ⟨w, w', nextAction_accept hphase hs, nextAction_accept hp ht, hop⟩
    · rcases he with rfl | rfl <;> exact .inl (by simp [Machine.nextAction, hrst, sequencerAction, hp, hphase, hs, ht])
  | ks => exact .inl (by simp [Machine.nextAction, hrst, sequencerAction, hp, hphase, hkey, hrnd])
  | rnd => exact .inl (by simp [Machine.nextAction, hrst, sequencerAction, hp, hphase, hkey, hrnd])

theorem SameControl.inputComplete_eq (h : SameControl s t) : inputComplete s = inputComplete t := by
  obtain ⟨hicnt, -⟩ := h
  rw [inputComplete, inputComplete, hicnt]

theorem SameControl.respond (code : RspCode) (x y : Byte) (h : SameControl s t) :
    SameControl (respond code x s) (respond code y t) := by
  obtain ⟨hicnt, hocnt, hkey, hmode, hphase, hrnd, herr, hin, -, hlog⟩ := h
  exact ⟨hicnt, hocnt, hkey, hmode, hphase, hrnd, herr, hin, rfl, by simp [hlog]⟩

theorem SameControl.succeed (x y : Byte) (h : SameControl s t) : SameControl (succeed x s) (succeed y t) := by
  obtain ⟨hicnt, hocnt, hkey, hmode, hphase, hrnd, -, hin, hrsp, hlog⟩ := h
  exact SameControl.respond .ok x y ⟨hicnt, hocnt, hkey, hmode, hphase, hrnd, rfl, hin, hrsp, hlog⟩

theorem SameControl.takeFault (f : CmdFault) (h : SameControl s t) : SameControl (takeFault f s) (takeFault f t) := by
  obtain ⟨hicnt, hocnt, hkey, hmode, hphase, hrnd, -, hin, -, hlog⟩ := h
  simp [SameControl, takeFault_icnt, takeFault_keyValid, *]

theorem SameControl.pushByte (b b' : Byte) (h : SameControl s t) : SameControl (pushByte b s) (pushByte b' t) := by
  obtain ⟨hicnt, hocnt, hkey, hmode, hphase, hrnd, herr, hin, hrsp, hlog⟩ := h
  have hicnt' : (Machine.pushByte b s).icnt = (Machine.pushByte b' t).icnt := by
    apply Fin.ext
    rw [pushByte_icnt_val, pushByte_icnt_val, hicnt]
  simp [SameControl, *]

theorem SameControl.consumeOutput (h : SameControl s t) : SameControl (consumeOutput s) (consumeOutput t) := by
  obtain ⟨hicnt, hocnt, hkey, hmode, hphase, hrnd, herr, hin, hrsp, hlog⟩ := h
  simp [SameControl, *]

theorem SameControl.startKeySchedule (h : SameControl s t) : SameControl (startKeySchedule s) (startKeySchedule t) := by
  obtain ⟨-, hocnt, -, hmode, -, -, herr, hin, hrsp, hlog⟩ := h
  exact ⟨rfl, hocnt, rfl, hmode, rfl, rfl, herr, hin, hrsp, hlog⟩

theorem SameControl.startCipher (m : Mode) (h : SameControl s t) : SameControl (startCipher m s) (startCipher m t) := by
  obtain ⟨-, hocnt, hkey, -, -, -, herr, hin, hrsp, hlog⟩ := h
  exact ⟨rfl, hocnt, hkey, rfl, rfl, rfl, herr, hin, hrsp, hlog⟩

theorem SameControl.keyRound (i : Fin 16) (h : SameControl s t) : SameControl (keyRound i s) (keyRound i t) := by
  obtain ⟨hicnt, hocnt, hkey, hmode, hphase, -, herr, hin, hrsp, hlog⟩ := h
  exact ⟨hicnt, hocnt, hkey, hmode, hphase, rfl, herr, hin, hrsp, hlog⟩

theorem SameControl.keyMicroStep (i : Fin 16) (h : SameControl s t) :
    SameControl (keyMicroStep i s) (keyMicroStep i t) := by
  by_cases hi : i.val = 15
  · rw [keyMicroStep_last i s hi, keyMicroStep_last i t hi]
    obtain ⟨hicnt, hocnt, -, hmode, -, hrnd, herr, hin, hrsp, hlog⟩ := h.keyRound i
    exact SameControl.succeed _ _ ⟨hicnt, hocnt, rfl, hmode, rfl, hrnd, herr, hin, hrsp, hlog⟩
  · rw [keyMicroStep_earlier i s hi, keyMicroStep_earlier i t hi]
    exact h.keyRound i

theorem SameControl.roundMicroStep (i : Fin 16) (h : SameControl s t) :
    SameControl (roundMicroStep i s) (roundMicroStep i t) := by
  obtain ⟨hicnt, hocnt, hkey, hmode, hphase, -, herr, hin, hrsp, hlog⟩ := h
  exact ⟨hicnt, hocnt, hkey, hmode, hphase, rfl, herr, hin, hrsp, hlog⟩

theorem SameControl.finalMicroStep (h : SameControl s t) : SameControl (finalMicroStep s) (finalMicroStep t) := by
  obtain ⟨hicnt, -, hkey, hmode, -, hrnd, -, hin, -, hlog⟩ := h
  simp [SameControl, *]

theorem SameControl.resetEdge (h : SameControl s t) : SameControl (resetEdge s) (resetEdge t) := by
  obtain ⟨-, -, -, -, -, -, -, hin, -, hlog⟩ := h
  exact ⟨rfl, rfl, rfl, rfl, rfl, rfl, rfl, hin, rfl, hlog⟩

end SameControl

/-- Two answers are next states with the same control. -/
def SameControlNext (a b : Host.Outcome State Fault Refusal) : Prop :=
  ∃ s t, a = .next s ∧ b = .next t ∧ SameControl s t

theorem SameControl.next {s t : State} (h : SameControl s t) : SameControlNext (.next s) (.next t) :=
  ⟨s, t, rfl, rfl, h⟩

/-- Two answers that branch on one test. -/
theorem SameControlNext.ite {p : Prop} [Decidable p] {a a' b b' : Host.Outcome State Fault Refusal}
    (h : SameControlNext a b) (h' : SameControlNext a' b') :
    SameControlNext (if p then a else a') (if p then b else b') := by
  split
  · exact h
  · exact h'

/-- The accepting step of one command tests and writes control registers by control registers alone. -/
theorem SameControl.exec {s t : State} (h : SameControl s t) (i : Instr) : SameControlNext (exec i s) (exec i t) := by
  have hcomplete := h.inputComplete_eq
  obtain ⟨-, hocnt, hkey, -⟩ := id h
  cases i with
  | nop => exact (h.respond _ _ _).next
  | push b => exact ((h.pushByte b b).succeed _ _).next
  | loadkey =>
    simp only [Machine.exec, execLoadkey, hcomplete]
    exact .ite h.startKeySchedule.next (h.takeFault _).next
  | enc =>
    simp only [Machine.exec, execEnc, hcomplete, hkey]
    exact .ite (h.takeFault _).next (.ite (h.startCipher _).next (h.takeFault _).next)
  | dec =>
    simp only [Machine.exec, execDec, hcomplete, hkey]
    exact .ite (h.takeFault _).next (.ite (h.startCipher _).next (h.takeFault _).next)
  | pop =>
    by_cases ho : t.ocnt.val = 0
    · simp only [Machine.exec, execPop, dif_pos ho, dif_pos (hocnt ▸ ho : s.ocnt.val = 0)]
      exact (h.takeFault _).next
    · simp only [Machine.exec, execPop, dif_neg ho, dif_neg (hocnt ▸ ho : ¬ s.ocnt.val = 0)]
      exact (h.consumeOutput.succeed _ _).next
  | reserved110 => exact (h.takeFault _).next
  | reserved111 => exact (h.takeFault _).next

/-- The commands of two words of one opcode do the same to the control registers. -/
theorem SameControl.exec_decode {s t : State} (h : SameControl s t) {w w' : CmdWord} (hop : opField w = opField w') :
    SameControlNext (Machine.exec (decode w) s) (Machine.exec (decode w') t) := by
  rcases decode_of_same_opField hop with heq | ⟨b, b', hw, hw'⟩
  · rw [heq]
    exact h.exec _
  · rw [hw, hw']
    exact ((h.pushByte b b').succeed _ _).next

/-- Two states with the same control step alike. -/
theorem SameControl.step {s t : State} (h : SameControl s t) :
    SameControlNext (step s) (step t) ∨ ∃ e, step s = .fault e ∧ step t = .fault e := by
  have hb := h.beginStep
  rcases h.nextAction with heq | ⟨w, w', hs, ht, hop⟩
  · simp only [Machine.step, heq]
    cases Machine.nextAction t with
    | reset => exact .inl hb.resetEdge.next
    | accept w => exact .inl (hb.exec _)
    | wait => exact .inl hb.next
    | keyRound i => exact .inl (hb.keyMicroStep i).next
    | cipherRound i => exact .inl (hb.roundMicroStep i).next
    | final => exact .inl hb.finalMicroStep.next
    | stuck => exact .inr ⟨_, rfl, rfl⟩
  · simp only [Machine.step, hs, ht]
    exact .inl (hb.exec_decode hop)

/-- Settles O51: the next states have the same control, so the same `STATUS`. -/
theorem controlIsIndependentOfData : Obligations.ControlIsIndependentOfData := by
  intro s t h
  rcases h.step with ⟨s', t', hs, ht, h'⟩ | hfault
  · exact .inl ⟨s', t', hs, ht, h', h'.status_eq⟩
  · exact .inr hfault

end Sys2Proof.Machine

/-! PROOFS. What the accepting step of a command leaves unchanged (spec/10_state.md sections 2 and 3): what a fault keeps,
by its code, then the frame of every branch of `exec_cases`. -/

namespace Sys2Proof.Machine

/-- Only code 1 touches the registers of the key (spec/60_exceptions.md R221). -/
theorem takeFault_keyRegisters {f : CmdFault} (s : State) (hf : f ≠ .invalidKeyError) :
    (takeFault f s).k = s.k ∧ (takeFault f s).keyValid = s.keyValid ∧ (takeFault f s).c = s.c ∧
      (takeFault f s).d = s.d ∧ (takeFault f s).draws = s.draws := by
  simp [takeFault_k, takeFault_keyValid, takeFault_draws, hf]

/-- A command that is none of the other five is POP or a reserved word. -/
theorem instr_eq_pop_or_reserved {i : Instr} (hnop : i ≠ .nop) (hpush : ∀ b, i ≠ .push b) (hload : i ≠ .loadkey)
    (henc : i ≠ .enc) (hdec : i ≠ .dec) : i = .pop ∨ i = .reserved110 ∨ i = .reserved111 := by
  cases i with
  | nop => exact absurd rfl hnop
  | push b => exact absurd rfl (hpush b)
  | loadkey => exact absurd rfl hload
  | enc => exact absurd rfl henc
  | dec => exact absurd rfl hdec
  | pop => exact .inl rfl
  | reserved110 => exact .inr (.inl rfl)
  | reserved111 => exact .inr (.inr rfl)

/-- Settles O21, branch by branch of `exec_cases`: an accepting branch writes what its operation's laws say; a fault
writes the key's registers only if it is LOADKEY's, and keeps `ICNT` if it is POP's or a reserved word's. -/
theorem commandFrames : Obligations.CommandFrames := by
  intro i s t h
  rcases exec_cases i s with ⟨rfl, he⟩ | ⟨b, rfl, he⟩ | ⟨rfl, -, he⟩ | ⟨m, hm, -, -, he⟩ | ⟨ho, rfl, he⟩ |
    ⟨f, hnop, hpush, hkeyFault, hpopFault, hreserved, he⟩ <;>
    obtain rfl : _ = t := Host.Outcome.next.inj (he.symm.trans h)
  · simp
  · simp
  · simp
  · rcases hm with ⟨rfl, -⟩ | ⟨rfl, -⟩ <;> simp
  · simp
  · have hicnt (hload : i ≠ .loadkey) (henc : i ≠ .enc) (hdec : i ≠ .dec) : (takeFault f s).icnt = s.icnt := by
      rw [takeFault_icnt]
      exact if_pos ((instr_eq_pop_or_reserved hnop hpush hload henc hdec).symm.imp hreserved.mpr hpopFault.mpr)
    exact ⟨takeFault_inputs f s, takeFault_obuf f s, fun _ => takeFault_ibuf f s, fun _ => takeFault_ocnt f s,
      fun hload => takeFault_keyRegisters s (mt hkeyFault.mp hload),
      fun _ _ => ⟨takeFault_l f s, takeFault_r f s, takeFault_mode f s⟩,
      fun _ _ _ => ⟨takeFault_phase f s, takeFault_rndctr f s⟩, fun _ => hicnt, fun hi => absurd hi hnop⟩

end Sys2Proof.Machine

/-! PROOFS. The statements on the encoding (spec/30_encoding.md sections 2 and 3): the decoder and the encoder field by
field, the opcode table's match column, and the assembler's pseudo-commands. -/

namespace Sys2Proof

/-! ### The fields of a word -/

/-- A word is its two fields side by side (spec/30_encoding.md R71). -/
theorem opField_append_imm8Field (w : CmdWord) : opField w ++ imm8Field w = w := by
  have h : 8 = 0 + 8 := rfl
  rw [opField, imm8Field, BitVec.extractLsb'_append_extractLsb'_eq_extractLsb' h, BitVec.extractLsb'_eq_self]

/-- The mask of the opcode table keeps `op` and clears bits 7:0 (spec/30_encoding.md R74). -/
theorem and_mask_eq_opField_append (w : CmdWord) : w &&& 0x700#11 = opField w ++ 0x00#8 := by
  have hmask : 0x700#11 = BitVec.allOnes 3 ++ 0x00#8 := by decide
  conv_lhs => rw [hmask, ← opField_append_imm8Field w, BitVec.and_append, BitVec.and_allOnes, BitVec.and_zero]

/-- A masked word is the match of a row exactly when its `op` is the row's. -/
theorem and_mask_eq_iff (w : CmdWord) (op : BitVec 3) : w &&& 0x700#11 = op ++ 0x00#8 ↔ opField w = op := by
  rw [and_mask_eq_opField_append]
  refine ⟨fun h => ?_, fun h => by rw [h]⟩
  have h' := congrArg (BitVec.extractLsb' 8 3) h
  simpa only [BitVec.extractLsb'_append_eq_left] using h'

/-! ### The decoder, by `op` -/

/-- There are eight values of `op`, one per row of the opcode table (spec/30_encoding.md R74). -/
theorem op_cases (op : BitVec 3) :
    op = 0b000#3 ∨ op = 0b001#3 ∨ op = 0b010#3 ∨ op = 0b011#3 ∨ op = 0b100#3 ∨ op = 0b101#3 ∨ op = 0b110#3 ∨
      op = 0b111#3 := by
  revert op; decide

/-- The decoder keeps `op` (spec/30_encoding.md R76). -/
@[simp] theorem decode_op (w : CmdWord) : (decode w).op = opField w := by
  rcases op_cases (opField w) with h | h | h | h | h | h | h | h <;> simp [decode, h, Instr.op]

/-- A word of PUSH's opcode is PUSH of its low byte (spec/30_encoding.md R71, R74). -/
theorem decode_push {w : CmdWord} (h : opField w = 0b001#3) : decode w = .push (imm8Field w) := by
  simp [decode, h]

/-- A word of another command's opcode is that command, whatever its ignored bits (spec/30_encoding.md R71, R76). -/
theorem decode_of_opField {w : CmdWord} {i : Instr} (h : opField w = i.op) (hi : i.op ≠ 0b001#3) : decode w = i := by
  cases i with
  | push imm8 => exact absurd rfl hi
  | _ => simp [decode, h, Instr.op]

/-- A word is a command other than PUSH exactly when its masked bits are the match of the command's row. -/
theorem decode_eq_iff_match (w : CmdWord) {i : Instr} (hi : i.op ≠ 0b001#3) :
    decode w = i ↔ w &&& 0x700#11 = i.op ++ 0x00#8 := by
  rw [and_mask_eq_iff]
  exact ⟨fun h => by rw [← h, decode_op], fun h => decode_of_opField h hi⟩

/-- A word is some PUSH exactly when its masked bits are the match of PUSH's row. -/
theorem decode_push_iff_match (w : CmdWord) : (∃ b, decode w = .push b) ↔ w &&& 0x700#11 = 0b001#3 ++ 0x00#8 := by
  rw [and_mask_eq_iff]
  exact ⟨fun ⟨b, hb⟩ => by rw [← decode_op, hb]; rfl, fun h => ⟨_, decode_push h⟩⟩

/-! ### The decoder and the encoder -/

/-- The encoder's fields, for every command (spec/30_encoding.md R71, R74). -/
theorem encode_fields (i : Instr) : opField (encode i) = i.op ∧ imm8Field (encode i) = i.low8 := by
  cases i with
  | nop => exact Laws.EncodedFields.nop
  | push imm8 => exact Laws.EncodedFields.push imm8
  | loadkey => exact Laws.EncodedFields.loadkey
  | enc => exact Laws.EncodedFields.enc
  | dec => exact Laws.EncodedFields.dec
  | pop => exact Laws.EncodedFields.pop
  | reserved110 => exact Laws.EncodedFields.reserved110
  | reserved111 => exact Laws.EncodedFields.reserved111

/-- The decoder undoes the encoder: PUSH by its two fields, every other command by `op` alone. -/
@[simp] theorem decode_encode (i : Instr) : decode (encode i) = i := by
  obtain ⟨hop, himm⟩ := encode_fields i
  by_cases hi : i.op = 0b001#3
  · rw [decode_push (hop.trans hi), himm]
    cases i with
    | push imm8 => rfl
    | _ => exact absurd hi (by decide)
  · exact decode_of_opField hop hi

/-- Only PUSH has low bits to encode. -/
theorem low8_eq_zero {i : Instr} (hi : i.op ≠ 0b001#3) : i.low8 = 0x00#8 := by
  cases i with
  | push imm8 => exact absurd rfl hi
  | _ => rfl

/-- The encoder undoes the decoder up to the ignored bits, which it clears (spec/30_encoding.md R71, R78). -/
theorem encode_decode (w : CmdWord) : encode (decode w) = if opField w = 0b001#3 then w else w &&& 0x700#11 := by
  split
  · next h => rw [decode_push h, encode, Instr.op, Instr.low8, ← h, opField_append_imm8Field]
  · next h => rw [encode, decode_op, low8_eq_zero (by rwa [decode_op]), and_mask_eq_opField_append]

/-- A command word, read as a number, is in range. -/
theorem decodeNat_toNat (w : CmdWord) : decodeNat w.toNat = .ok (decode w) := by
  have hw : wordInRange w.toNat = true := decide_eq_true w.isLt
  rw [decodeNat, if_pos hw, BitVec.ofNat_toNat, BitVec.setWidth_eq]

/-- A number with a bit above bit 10 is rejected by name. -/
theorem decodeNat_of_ge {n : Nat} (h : 2048 ≤ n) : decodeNat n = .error .notElevenBits := by
  have hn : ¬ wordInRange n = true := by simpa [wordInRange] using h
  rw [decodeNat, if_neg hn]

/-- What the decoder reads from the host's table words is what it reads from the low 11 bits. -/
theorem decode_of_decodeTableWord {nbits w : Nat} {i : Instr} (h : decodeTableWord nbits w = some i) :
    decode (BitVec.ofNat 11 (w % 2 ^ nbits)) = i := by
  unfold decodeTableWord decodeNat at h
  split at h
  · next j hj =>
    split at hj
    · rw [Except.ok.inj hj, Option.some.inj h]
    · cases hj
  · cases h

/-- Settles O1: one direction by the encoder's fields, the other by the word's. -/
theorem decodeAndEncodeAgree : Obligations.DecodeAndEncodeAgree :=
  ⟨fun i _ => by rw [decodeNat_toNat, decode_encode], encode_decode, fun _ => decodeNat_of_ge⟩

/-- Settles O2: ten closed words. -/
theorem opcodeTableWordsDecode : Obligations.OpcodeTableWordsDecode := by
  unfold Obligations.OpcodeTableWordsDecode
  decide

/-- Settles O3: the decoder keeps `op`, which names every command but a PUSH, whose byte is the other field. -/
theorem wordDecodesByOpFieldAlone : Obligations.WordDecodesByOpFieldAlone := by
  refine ⟨decode_op, fun w w' heq hne => ?_, fun w => decode_push⟩
  exact decode_of_opField (by rw [decode_op, heq]) (by rwa [decode_op, ← heq])

/-- Settles O4: each match of the table is the row's `op` followed by zeros. -/
theorem matchAndMaskSelectTheCommand : Obligations.MatchAndMaskSelectTheCommand := fun w =>
  ⟨decode_eq_iff_match w (by decide), decode_push_iff_match w, decode_eq_iff_match w (by decide),
    decode_eq_iff_match w (by decide), decode_eq_iff_match w (by decide), decode_eq_iff_match w (by decide),
    decode_eq_iff_match w (by decide), decode_eq_iff_match w (by decide)⟩

namespace Machine

/-! ### The assembler -/

/-- The assembler emits the words of every well-formed line (spec/30_encoding.md R78). -/
theorem assembleItem_of_wellFormed {item : ScriptItem} (h : item.wellFormed = true) :
    assembleItem item = .ok (wordsOf item) := if_pos h

/-- Settles O5: eight bytes make a pseudo-command well-formed; the example's text is computed. -/
theorem pseudoCommandsExpand : Obligations.PseudoCommandsExpand := by
  refine ⟨fun bytes hlen => ?_, rfl⟩
  have hwf : (bytes.length == 8) = true := beq_iff_eq.mpr hlen
  exact ⟨assembleItem_of_wellFormed hwf, assembleItem_of_wellFormed hwf, assembleItem_of_wellFormed hwf,
    assembleItem_of_wellFormed rfl⟩

end Machine

end Sys2Proof

/-! PROOFS. The statements on the command port (spec/30_encoding.md section 1): what an idle core does with a presented
word, and that a running operation takes no notice of one. -/

namespace Sys2Proof.Machine

/-! ### An idle core -/

/-- Acceptance takes the presented word and ends the response pulse (spec/30_encoding.md R70). -/
theorem beginStep_accept {s : State} {w : CmdWord} {rest : List HostEvent} (hp : s.phase = .idle)
    (h : s.inputs = .command w :: rest) : beginStep s = { s with inputs := rest, rsp := none } := by
  rw [beginStep, remainingInputs_accept hp h]

/-- Settles O6: the step is the acceptance of the word. -/
theorem stepRunsThePresentedCommand : Obligations.StepRunsThePresentedCommand := by
  intro s w rest hp hin
  rw [step_accept hp hin, beginStep_accept hp hin]

/-- Settles O7: `withFetchWord` presents to an idle core the word that the decoder reads. -/
theorem fetchedWordRuns : Obligations.FetchedWordRuns := by
  intro s nbits w i hi
  rw [← decode_of_decodeTableWord hi]
  exact stepRunsThePresentedCommand (s.withFetchWord nbits w) _ s.inputs rfl rfl

/-- Settles O13: NOP's opcode is no PUSH's, and its accepting step is the response alone. -/
theorem nopOnlyResponds : Obligations.NopOnlyResponds :=
  ⟨fun _ h => decode_of_opField h (by decide), fun _ => rfl⟩

/-! ### A running operation and the commands that wait -/

/-- The host presents nothing, or a command: no reset and no quiet entry is next. -/
def NothingOrCommand (ins : List HostEvent) : Prop := ins = [] ∨ ∃ w rest, ins = .command w :: rest

theorem nothingOrCommand_nil : NothingOrCommand [] := .inl rfl

theorem nothingOrCommand_cons (w : CmdWord) (rest : List HostEvent) : NothingOrCommand (.command w :: rest) :=
  .inr ⟨w, rest, rfl⟩

section Busy

variable {s : State} {ins : List HostEvent}

/-- A busy core goes on with its operation, whatever command is presented (spec/30_encoding.md R72). -/
theorem NothingOrCommand.nextAction_busy (h : NothingOrCommand ins) (hp : s.phase ≠ .idle) :
    nextAction { s with inputs := ins } = sequencerAction s := by
  have hreset : rstPin { s with inputs := ins } = false := by
    rcases h with rfl | ⟨w, rest, rfl⟩ <;> rfl
  rw [nextAction_of_not_rstPin _ hreset]
  cases hph : s.phase with
  | idle => exact absurd hph hp
  | ks => simp only [sequencerAction, hph]
  | rnd => simp only [sequencerAction, hph]

/-- A busy core accepts nothing: the inputs stay and only the response pulse ends (spec/30_encoding.md R72). -/
theorem NothingOrCommand.beginStep_busy (h : NothingOrCommand ins) (hp : s.phase ≠ .idle) :
    beginStep { s with inputs := ins } = { s with inputs := ins, rsp := none } := by
  rcases h with rfl | ⟨w, rest, rfl⟩
  · rfl
  · simp only [beginStep, remainingInputs, if_neg hp]

end Busy

/-- A key-schedule micro-step has nothing to do with the inputs. -/
theorem keyMicroStep_withInputs (i : Fin 16) (s : State) (ins : List HostEvent) :
    keyMicroStep i { s with inputs := ins } = { keyMicroStep i s with inputs := ins } := by
  unfold keyMicroStep
  split <;> rfl

/-- A step of a running operation, whatever command waits: the same change, and the inputs stay
(spec/30_encoding.md R72). -/
theorem step_busy {s : State} (hinv : ControlInv s) (hp : s.phase ≠ .idle) :
    ∃ t : State, ∀ ins, NothingOrCommand ins → step { s with inputs := ins } = .next { t with inputs := ins } := by
  rcases sequencerAction_cases s with ⟨_, _, _, hidle, _⟩ | ⟨_, hidle⟩ | ⟨i, ha, _⟩ | ⟨i, ha, _⟩ | ⟨ha, _⟩ |
    ⟨_, hstuck⟩
  · exact absurd hidle hp
  · exact absurd hidle hp
  · refine ⟨keyMicroStep i { s with rsp := none }, fun ins hins => ?_⟩
    simp only [step, hins.nextAction_busy hp, ha, hins.beginStep_busy hp]
    exact congrArg Host.Outcome.next (keyMicroStep_withInputs i { s with rsp := none } ins)
  · refine ⟨roundMicroStep i { s with rsp := none }, fun ins hins => ?_⟩
    simp only [step, hins.nextAction_busy hp, ha, hins.beginStep_busy hp]
    rfl
  · refine ⟨finalMicroStep { s with rsp := none }, fun ins hins => ?_⟩
    simp only [step, hins.nextAction_busy hp, ha, hins.beginStep_busy hp]
    rfl
  · exact absurd hinv hstuck

/-- Settles O8: the step of the running operation is the same with the command and with nothing, and once it has made
the core idle, O6 applies to the command that is still there. -/
theorem commandWaitsWhileBusy : Obligations.CommandWaitsWhileBusy := by
  intro s w rest hinv hp hin
  have hbusy : busy s = true := bne_iff_ne.mpr hp
  have hready : cmdReady s = false := by simp [cmdReady, hp]
  obtain ⟨t, ht⟩ := step_busy hinv hp
  have hstep : step s = .next { t with inputs := .command w :: rest } := by
    rw [← ht _ (nothingOrCommand_cons w rest), ← hin]
  exact ⟨hbusy, hready, { t with inputs := .command w :: rest }, hstep, rfl, ht [] nothingOrCommand_nil,
    fun hidle => stepRunsThePresentedCommand { t with inputs := .command w :: rest } w rest hidle rfl⟩

end Sys2Proof.Machine

/-! PROOFS. Commands run to their completion (spec/30_encoding.md R70, R73): the micro-steps of LOADKEY, ENC, DEC walk
through the states written out here, so a command leaves what its one-step meaning says, and responds once. -/

namespace Sys2Proof.Machine

/-! ### Runs that complete -/

/-- After `N` steps from `s` the machine is in `t`, and in the states between no response has come. -/
def CompletesIn (N : Nat) (s t : State) : Prop :=
  Host.Core.run Sys2Proof.core N s = .next t ∧
    ∀ n, 0 < n → n < N → ∃ u, Host.Core.run Sys2Proof.core n s = .next u ∧ u.rspLog = s.rspLog ∧ u.rsp = none

/-- A single step has no states between. -/
theorem completesIn_one {s t : State} (h : step s = .next t) : CompletesIn 1 s t :=
  ⟨run_succ h, fun _ _ _ => by omega⟩

/-- A run along a sequence of states, each the step of the one before. -/
theorem run_along {N : Nat} {f : Fin (N + 1) → State} (h : ∀ i : Fin N, step (f i.castSucc) = .next (f i.succ))
    (n : Fin (N + 1)) : Host.Core.run Sys2Proof.core n.val (f 0) = .next (f n) := by
  induction n using Fin.induction with
  | zero => rfl
  | succ i ih => exact (run_add ih).trans (run_succ (h i))

/-- An operation: an accepting step, micro-steps through states without a response, and the one that completes. -/
theorem completesIn_of_microSteps {N : Nat} {f : Fin (N + 1) → State} {s t : State}
    (hstart : step s = .next (f 0)) (hmicro : ∀ i : Fin N, step (f i.castSucc) = .next (f i.succ))
    (hend : step (f (Fin.last N)) = .next t) (hquiet : ∀ i, (f i).rspLog = s.rspLog ∧ (f i).rsp = none) :
    CompletesIn (N + 2) s t := by
  have hrun (i : Fin (N + 1)) : Host.Core.run Sys2Proof.core (i.val + 1) s = .next (f i) :=
    (run_succ hstart).trans (run_along hmicro i)
  refine ⟨(run_add (n := 1) (hrun (Fin.last N))).trans (run_succ hend), fun n hpos hlt => ?_⟩
  obtain ⟨m, rfl⟩ := Nat.exists_eq_add_one.mpr hpos
  exact ⟨_, hrun ⟨m, by omega⟩, hquiet _⟩

/-! ### The key schedule, state by state -/

/-- `K` when `n` subkeys of the key in `IBUF` have been written over free values (spec/42_keyschedule.md R134). -/
def subkeysWritten (s : State) (n : Nat) : SubkeyStore :=
  Vector.ofFn fun j : Fin 16 =>
    if j.val < n then subkeyAt (inputBlock s) (j.val + 1) else (Config.unspecifiedK s.draws)[j.val]

theorem subkeysWritten_zero (s : State) : subkeysWritten s 0 = Config.unspecifiedK s.draws :=
  Vector.ext fun j hj => by simp [subkeysWritten]

/-- All sixteen are the schedule (spec/42_keyschedule.md R140). -/
theorem subkeysWritten_sixteen (s : State) : subkeysWritten s 16 = keySchedule (inputBlock s) :=
  Vector.ext fun j hj => by simp [subkeysWritten, keySchedule]

theorem subkeysWritten_succ (s : State) (i : Fin 16) :
    subkeysWritten s (i.val + 1) = (subkeysWritten s i.val).set i.val (subkeyAt (inputBlock s) (i.val + 1)) := by
  refine Vector.ext fun j hj => ?_
  simp only [subkeysWritten, Vector.getElem_set, Vector.getElem_ofFn]
  rcases Nat.lt_trichotomy j i.val with h | h | h
  · rw [if_pos (by omega), if_neg (by omega), if_pos h]
  · rw [if_pos (by omega), if_pos h.symm, h]
  · rw [if_neg (by omega), if_neg (by omega), if_neg (by omega)]

/-- The state `n` micro-steps behind the acceptance of a LOADKEY in `s` (spec/42_keyschedule.md R133, R134). -/
def keyStateAt (s : State) (n : Fin 17) : State :=
  { startKeySchedule s with
    c := halfAfter (keyC0 (inputBlock s)) n.val
    d := halfAfter (keyD0 (inputBlock s)) n.val
    k := subkeysWritten s n.val
    rndctr := n }

theorem keyStateAt_rspLog (s : State) (n : Fin 17) : (keyStateAt s n).rspLog = s.rspLog := by
  simp only [keyStateAt, startKeySchedule_rspLog]

theorem keyStateAt_rsp (s : State) (n : Fin 17) : (keyStateAt s n).rsp = s.rsp := by
  simp only [keyStateAt, startKeySchedule_rsp]

theorem keyStateAt_inputs (s : State) (n : Fin 17) : (keyStateAt s n).inputs = s.inputs := by
  simp only [keyStateAt, startKeySchedule_inputs]

theorem keyStateAt_zero (s : State) : keyStateAt s 0 = startKeySchedule s := by
  rw [keyStateAt, Fin.val_zero, subkeysWritten_zero]
  rfl

/-- One more round writes one more subkey (spec/42_keyschedule.md R134). -/
theorem keyRound_keyStateAt (s : State) (i : Fin 16) : keyRound i (keyStateAt s i.castSucc) = keyStateAt s i.succ := by
  rw [keyStateAt, keyStateAt, Fin.val_succ, subkeysWritten_succ]
  rfl

/-- The sixteenth micro-step leaves the one-step meaning of LOADKEY (spec/42_keyschedule.md R135). -/
theorem keyMicroStep_keyStateAt_last (s : State) :
    keyMicroStep (Fin.last 15) (keyStateAt s (Fin.last 15).castSucc) = loadKeyAtOnce s := by
  have hlast : (Fin.last 15).succ = (16 : Fin 17) := rfl
  rw [keyMicroStep_last _ _ rfl, keyRound_keyStateAt, hlast, keyStateAt, loadKeyAtOnce, ← subkeysWritten_sixteen]
  rfl

/-- A LOADKEY that has its eight bytes completes in seventeen steps (spec/42_keyschedule.md R135). -/
theorem completesIn_loadKey {s u : State} (hstart : step s = .next (startKeySchedule u)) (hlog : u.rspLog = s.rspLog)
    (hrsp : u.rsp = none) (hwait : ∀ e ∈ u.inputs, ∃ w, e = HostEvent.command w) :
    CompletesIn Config.ustepsLoadkey s (loadKeyAtOnce u) := by
  have hquiet (i : Fin 16) : (keyStateAt u i.castSucc).rspLog = s.rspLog ∧ (keyStateAt u i.castSucc).rsp = none :=
    ⟨(keyStateAt_rspLog u _).trans hlog, (keyStateAt_rsp u _).trans hrsp⟩
  have hstep (i : Fin 16) : step (keyStateAt u i.castSucc) = .next (keyMicroStep i (keyStateAt u i.castSucc)) :=
    step_keyRound rfl rfl rfl (hquiet i).2 (by rwa [keyStateAt_inputs])
  refine completesIn_of_microSteps (f := fun i : Fin 16 => keyStateAt u i.castSucc) ?_ (fun i => ?_) ?_ hquiet
  · exact hstart.trans (congrArg _ (keyStateAt_zero u).symm)
  · rw [hstep, keyMicroStep_earlier _ _ i.isLt.ne, keyRound_keyStateAt]
    rfl
  · rw [hstep, keyMicroStep_keyStateAt_last]

/-! ### The rounds, state by state -/

/-- The state `n` micro-steps behind the acceptance of an ENC or DEC in `s` (spec/44_blockcipher.md R174 to R176). -/
def roundStateAt (m : Mode) (s : State) (n : Fin 17) : State :=
  { startCipher m s with
    l := (halvesAfter s.k m (startHalves (inputBlock s)) n.val).1
    r := (halvesAfter s.k m (startHalves (inputBlock s)) n.val).2
    rndctr := n }

/-- One more micro-step is one more round (spec/44_blockcipher.md R176). -/
theorem roundMicroStep_roundStateAt (m : Mode) (s : State) (i : Fin 16) :
    roundMicroStep i (roundStateAt m s i.castSucc) = roundStateAt m s i.succ := by
  rw [roundStateAt, roundStateAt, Fin.val_succ, halvesAfter_succ]
  rfl

/-- The final micro-step leaves the one-step meaning of ENC and DEC (spec/44_blockcipher.md R178). -/
theorem finalMicroStep_roundStateAt_last (m : Mode) (s : State) :
    finalMicroStep (roundStateAt m s (Fin.last 16)) = cipherAtOnce m s := rfl

/-- An ENC or DEC that passes its checks completes in eighteen steps (spec/44_blockcipher.md R178). -/
theorem completesIn_cipher {m : Mode} {s u : State} (hstart : step s = .next (startCipher m u)) (hk : u.keyValid = true)
    (hlog : u.rspLog = s.rspLog) (hrsp : u.rsp = none) (hwait : ∀ e ∈ u.inputs, ∃ w, e = HostEvent.command w) :
    CompletesIn Config.ustepsCrypt s (cipherAtOnce m u) := by
  refine completesIn_of_microSteps (f := roundStateAt m u) hstart (fun i => ?_) ?_ fun _ => ⟨hlog, hrsp⟩
  · rw [← roundMicroStep_roundStateAt]
    exact step_cipherRound rfl hk rfl hrsp hwait
  · rw [← finalMicroStep_roundStateAt_last]
    exact step_final rfl hk rfl hrsp hwait

/-! ### Every command, in the steps it takes -/

/-- How a command runs: at once in its accepting step, or as a key schedule or a block operation. -/
theorem command_cases (i : Instr) (s : State) :
    (commandSteps i s = 1 ∧ exec i s = .next (commandAtOnce i s)) ∨
    (commandSteps i s = Config.ustepsLoadkey ∧ exec i s = .next (startKeySchedule s) ∧
      commandAtOnce i s = loadKeyAtOnce s) ∨
    (∃ m, s.keyValid = true ∧ commandSteps i s = Config.ustepsCrypt ∧ exec i s = .next (startCipher m s) ∧
      commandAtOnce i s = cipherAtOnce m s) := by
  cases i with
  | nop => exact .inl ⟨rfl, rfl⟩
  | push b => exact .inl ⟨rfl, rfl⟩
  | loadkey =>
    cases h : inputComplete s with
    | true => exact .inr (.inl (by simp [commandSteps, exec, execLoadkey, commandAtOnce, h]))
    | false => exact .inl (by simp [commandSteps, exec, execLoadkey, commandAtOnce, h])
  | enc =>
    cases hv : s.keyValid <;> cases h : inputComplete s
    case true.true => exact .inr (.inr ⟨.encrypt, by simp [commandSteps, exec, execEnc, commandAtOnce, hv, h]⟩)
    all_goals exact .inl (by simp [commandSteps, exec, execEnc, commandAtOnce, hv, h])
  | dec =>
    cases hv : s.keyValid <;> cases h : inputComplete s
    case true.true => exact .inr (.inr ⟨.decrypt, by simp [commandSteps, exec, execDec, commandAtOnce, hv, h]⟩)
    all_goals exact .inl (by simp [commandSteps, exec, execDec, commandAtOnce, hv, h])
  | pop =>
    refine .inl ⟨rfl, ?_⟩
    by_cases h : s.ocnt.val = 0
    · simp only [exec, execPop, commandAtOnce, dif_pos h]
    · simp only [exec, execPop, commandAtOnce, dif_neg h]
  | reserved110 => exact .inl ⟨rfl, rfl⟩
  | reserved111 => exact .inl ⟨rfl, rfl⟩

/-- The number of steps depends on `ICNT` and `KEYVALID`, which the port does not change. -/
theorem commandSteps_beginStep (i : Instr) (s : State) : commandSteps i (beginStep s) = commandSteps i s := by
  cases i <;> rfl

/-- A presented command completes in its steps with its one-step meaning (spec/92_eei_decisions.md D24). -/
theorem completesIn_command {s : State} {w : CmdWord} {rest : List HostEvent} (hp : s.phase = .idle)
    (h : Presents s w rest) : CompletesIn (commandSteps (decode w) s) s (commandAtOnce (decode w) (beginStep s)) := by
  obtain ⟨hin, hrest⟩ := h
  have hstep : step s = exec (decode w) (beginStep s) := step_accept hp hin
  have hwait : ∀ e ∈ (beginStep s).inputs, ∃ w', e = HostEvent.command w' := by
    rwa [beginStep_inputs, remainingInputs_accept hp hin]
  rw [← commandSteps_beginStep (decode w) s]
  rcases command_cases (decode w) (beginStep s) with ⟨hn, he⟩ | ⟨hn, he, hm⟩ | ⟨m, hk, hn, he, hm⟩
  · rw [hn]
    exact completesIn_one (hstep.trans he)
  · rw [hn, hm]
    exact completesIn_loadKey (hstep.trans he) rfl rfl hwait
  · rw [hn, hm]
    exact completesIn_cipher (hstep.trans he) hk rfl rfl hwait

/-! ### The response -/

/-- From `s` to `t` one response has come, `r`, it is on the port, and the core is idle. -/
def RespondsWith (r : Response) (s t : State) : Prop :=
  t.phase = .idle ∧ t.rspLog = s.rspLog ++ [r] ∧ t.rsp = some r

theorem respondsWith_succeed {s u : State} (data : Byte) (hp : u.phase = .idle) (hlog : u.rspLog = s.rspLog) :
    RespondsWith ⟨.ok, data⟩ s (succeed data u) :=
  ⟨hp, by rw [succeed_rspLog, hlog], rfl⟩

theorem respondsWith_takeFault {s : State} (f : CmdFault) (hp : s.phase = .idle) :
    RespondsWith ⟨.fault f, 0x00#8⟩ s (takeFault f s) :=
  ⟨by rw [takeFault_phase, hp], takeFault_rspLog f s, takeFault_rsp f s⟩

/-- A choice between two states that respond with data 00 responds so. -/
theorem respondsWith_ite {p : Prop} [Decidable p] {s a b : State}
    (ha : ∃ code, RespondsWith ⟨code, 0x00#8⟩ s a) (hb : ∃ code, RespondsWith ⟨code, 0x00#8⟩ s b) :
    ∃ code, RespondsWith ⟨code, 0x00#8⟩ s (if p then a else b) := by
  split <;> assumption

/-- The data byte of every command but POP is 00 (spec/30_encoding.md R73). -/
theorem respondsWith_commandAtOnce {i : Instr} {s : State} (hi : i ≠ .pop) (hp : s.phase = .idle) :
    ∃ code, RespondsWith ⟨code, 0x00#8⟩ s (commandAtOnce i s) := by
  have hfault (f : CmdFault) : ∃ code, RespondsWith ⟨code, 0x00#8⟩ s (takeFault f s) :=
    ⟨_, respondsWith_takeFault f hp⟩
  have hcipher (m : Mode) : ∃ code, RespondsWith ⟨code, 0x00#8⟩ s (cipherAtOnce m s) :=
    ⟨_, respondsWith_succeed _ rfl rfl⟩
  cases i with
  | nop => exact ⟨_, hp, rfl, rfl⟩
  | push b => exact ⟨_, respondsWith_succeed _ (by rw [pushByte_phase, hp]) (pushByte_rspLog b s)⟩
  | loadkey => exact respondsWith_ite ⟨_, respondsWith_succeed _ rfl rfl⟩ (hfault .invalidKeyError)
  | enc => exact respondsWith_ite (hfault .noKeyFault) (respondsWith_ite (hcipher .encrypt) (hfault .blockLengthFault))
  | dec => exact respondsWith_ite (hfault .noKeyFault) (respondsWith_ite (hcipher .decrypt) (hfault .invalidInputError))
  | pop => exact absurd rfl hi
  | reserved110 => exact hfault .illegalCommand
  | reserved111 => exact hfault .illegalCommand

/-- A POP with unread output answers the next byte (spec/40_bitcodec.md R97). -/
theorem respondsWith_pop {s : State} (hp : s.phase = .idle) (h : s.ocnt.val ≠ 0) :
    RespondsWith ⟨.ok, nextOutput s h⟩ s (commandAtOnce .pop s) := by
  rw [commandAtOnce, dif_neg h]
  exact respondsWith_succeed _ hp rfl

/-- A POP with none answers its fault (spec/40_bitcodec.md R97). -/
theorem respondsWith_pop_empty {s : State} (hp : s.phase = .idle) (h : s.ocnt.val = 0) :
    RespondsWith ⟨.fault .outputEmptyFault, 0x00#8⟩ s (commandAtOnce .pop s) := by
  rw [commandAtOnce, dif_pos h]
  exact respondsWith_takeFault _ hp

/-- Settles O50: the command completes in its steps, quiet before, and its one-step meaning responds. -/
theorem oneResponsePerCommand : Obligations.OneResponsePerCommand := by
  intro s w rest hp hpres
  obtain ⟨hrun, hquiet⟩ := completesIn_command hp hpres
  refine ⟨?_, hquiet⟩
  rcases eq_or_ne (decode w) .pop with hpop | hpop
  · rw [hpop] at hrun ⊢
    rcases eq_or_ne s.ocnt.val 0 with ho | ho
    · obtain ⟨hidle, hlog, hrsp⟩ := respondsWith_pop_empty (s := beginStep s) hp ho
      exact ⟨_, _, hrun, hidle, hlog, hrsp, fun _ => rfl, fun _ hne => absurd ho hne⟩
    · obtain ⟨hidle, hlog, hrsp⟩ := respondsWith_pop (s := beginStep s) hp ho
      exact ⟨_, _, hrun, hidle, hlog, hrsp, fun hnot => absurd ⟨rfl, rfl⟩ hnot, fun _ _ => rfl⟩
  · obtain ⟨code, hidle, hlog, hrsp⟩ := respondsWith_commandAtOnce (s := beginStep s) hpop hp
    exact ⟨_, _, hrun, hidle, hlog, hrsp, fun _ => rfl, fun h => absurd h hpop⟩

/-! ### Lists of commands -/

/-- Inputs put in behind a choice are put in behind both of its branches. -/
theorem ite_withInputs {p : Prop} [Decidable p] {a a' b b' : State} {ins : List HostEvent}
    (ha : a' = { a with inputs := ins }) (hb : b' = { b with inputs := ins }) :
    (if p then a' else b') = { (if p then a else b) with inputs := ins } := by
  split <;> assumption

/-- No one-step meaning reads the port: what it presents stays, and the response is replaced. -/
theorem commandAtOnce_withPort (i : Instr) (s : State) (ins : List HostEvent) (rsp : Option Response) :
    commandAtOnce i { s with inputs := ins, rsp := rsp } = { commandAtOnce i s with inputs := ins } := by
  cases i with
  | nop => rfl
  | push b =>
    simp only [commandAtOnce, pushByte]
    split <;> rfl
  | loadkey => exact ite_withInputs rfl rfl
  | enc => exact ite_withInputs rfl (ite_withInputs rfl rfl)
  | dec => exact ite_withInputs rfl (ite_withInputs rfl rfl)
  | pop =>
    simp only [commandAtOnce]
    split <;> rfl
  | reserved110 => rfl
  | reserved111 => rfl

/-- Nor does a list of them. -/
theorem runCommands_withInputs (ws : List CmdWord) (s : State) (ins : List HostEvent) :
    runCommands ws { s with inputs := ins } = { runCommands ws s with inputs := ins } := by
  induction ws generalizing s with
  | nil => rfl
  | cons w ws ih =>
    calc runCommands (w :: ws) { s with inputs := ins }
        = runCommands ws (commandAtOnce (decode w) { s with inputs := ins }) := rfl
      _ = runCommands ws { commandAtOnce (decode w) s with inputs := ins } := by
          rw [commandAtOnce_withPort (decode w) s ins s.rsp]
      _ = { runCommands (w :: ws) s with inputs := ins } := ih _

/-- One-step meanings leave an idle core idle. -/
theorem commandAtOnce_phase (i : Instr) {s : State} (hp : s.phase = .idle) : (commandAtOnce i s).phase = .idle := by
  rcases eq_or_ne i .pop with rfl | hi
  · rcases eq_or_ne s.ocnt.val 0 with ho | ho
    · obtain ⟨hidle, -⟩ := respondsWith_pop_empty hp ho
      exact hidle
    · obtain ⟨hidle, -⟩ := respondsWith_pop hp ho
      exact hidle
  · obtain ⟨_, hidle, -⟩ := respondsWith_commandAtOnce hi hp
    exact hidle

/-- Settles O49, by induction on the words: each completes in its one-step meaning with the others still presented. -/
theorem commandListsRunAtCommandLevel : Obligations.CommandListsRunAtCommandLevel := by
  intro ws
  induction ws with
  | nil => exact fun s _ hin => ⟨0, by rw [runCommands, List.foldl_nil, ← show s.inputs = [] from hin]; rfl⟩
  | cons w ws ih =>
    intro s hp hin
    have hpres : Presents s w (ws.map HostEvent.command) :=
      ⟨hin, fun e he => (List.mem_map.mp he).imp fun _ h => h.2.symm⟩
    obtain ⟨hrun, -⟩ := completesIn_command hp hpres
    rw [beginStep_accept hp hin, commandAtOnce_withPort] at hrun
    obtain ⟨n, hn⟩ := ih { commandAtOnce (decode w) s with inputs := ws.map HostEvent.command }
      (commandAtOnce_phase (decode w) hp) rfl
    refine ⟨commandSteps (decode w) s + n, (run_add hrun).trans (hn.trans ?_)⟩
    rw [runCommands_withInputs]
    rfl

end Sys2Proof.Machine

/-! PROOFS. The statements on the codec and its two commands (spec/40_bitcodec.md): the two functions undo each other
position by position, and PUSH and POP with their frames. -/

namespace Sys2Proof.Machine

/-! ### The codec -/

/-- Position `8j + k + 1` of a sequence is bit `k + 1` of its byte `j` (spec/40_bitcodec.md R91). -/
theorem getMsbD_getElem_bitsToBytes {m : Nat} (x : BitVec (8 * m)) (j k : Nat) (hj : j < m) (hk : k < 8) :
    (bitsToBytes x)[j].getMsbD k = x.getMsbD (8 * j + k) := by
  rw [getElem_bitsToBytes, getMsbD_slice x _ _ _ (by omega) (by omega) hk, Nat.add_sub_cancel]

theorem bitsToBytes_bytesToBits {m : Nat} (b : Vector Byte m) : bitsToBytes (bytesToBits b) = b :=
  Vector.ext fun j hj => eq_of_positions _ _ fun k => by
    rw [getMsbD_getElem_bitsToBytes _ j k hj k.isLt, getMsbD_bytesToBits b j k hj k.isLt]

theorem bytesToBits_bitsToBytes {m : Nat} (x : BitVec (8 * m)) : bytesToBits (bitsToBytes x) = x :=
  eq_of_positions _ _ fun i => by
    have hj : i.val / 8 < m := Nat.div_lt_of_lt_mul i.isLt
    have hk : i.val % 8 < 8 := Nat.mod_lt _ (by decide)
    rw [← Nat.div_add_mod i.val 8, getMsbD_bytesToBits _ _ _ hj hk, getMsbD_getElem_bitsToBytes x _ _ hj hk]

/-- Settles O25: both functions keep bit `k + 1` of byte `j` at position `8j + k + 1`. -/
theorem codecIsInverse : Obligations.CodecIsInverse := fun _ => ⟨bitsToBytes_bytesToBits, bytesToBits_bitsToBytes⟩

/-! ### PUSH -/

/-- PUSH with room appends (spec/40_bitcodec.md R95). -/
theorem pushByte_of_room (b : Byte) {s : State} (h : s.icnt.val ≤ 7) :
    pushByte b s = { s with ibuf := s.ibuf.set s.icnt.val b, icnt := ⟨s.icnt.val + 1, by omega⟩ } := dif_pos h

/-- PUSH into a full buffer only remembers the overflow (spec/40_bitcodec.md R95). -/
theorem pushByte_of_full (b : Byte) {s : State} (h : ¬ s.icnt.val ≤ 7) : pushByte b s = { s with icnt := 9 } :=
  dif_neg h

/-- Settles O14: `exec` of PUSH is its success behind `pushByte`, with room and without. -/
theorem pushAppendsOrRemembersOverflow : Obligations.PushAppendsOrRemembersOverflow := by
  refine ⟨fun _ => decode_push, fun b s hroom => ⟨succeed 0#8 (pushByte b s), rfl, ?_⟩, fun b s hfull => ?_⟩
  · rw [pushByte_of_room b hroom]
    refine ⟨rfl, fun j => ?_, rfl⟩
    simp only [succeed_ibuf, Vector.getElem_set, @eq_comm _ s.icnt.val]
  · rw [exec, execPush, pushByte_of_full b hfull]
    rfl

/-! ### POP -/

/-- POP with unread output (spec/40_bitcodec.md R97). -/
theorem exec_pop_of_output {s : State} (h : s.ocnt.val ≠ 0) :
    exec .pop s = .next (succeed (nextOutput s h) (consumeOutput s)) := dif_neg h

/-- POP with none (spec/40_bitcodec.md R97). -/
theorem exec_pop_of_empty {s : State} (h : s.ocnt.val = 0) : exec .pop s = .next (takeFault .outputEmptyFault s) :=
  dif_pos h

/-- No accepting step but a POP's writes `OCNT`. -/
theorem exec_ocnt_of_ne_pop {i : Instr} {s t : State} (hi : i ≠ .pop) (h : exec i s = .next t) : t.ocnt = s.ocnt := by
  rcases exec_ocnt h with ho | ⟨hpop, -⟩
  · exact ho
  · exact absurd hpop hi

/-- Settles O15: the two branches of POP, and no accepting step writes `OBUF`. -/
theorem popReturnsTheNextByte : Obligations.PopReturnsTheNextByte := by
  refine ⟨fun _ h => decode_of_opField h (by decide), fun s t h => ⟨exec_obuf h, exec_ocnt_of_ne_pop (by decide) h⟩,
    fun s ho => ⟨_, exec_pop_of_output ho, ?_, rfl⟩, fun s => exec_pop_of_empty, rfl, rfl⟩
  rw [succeed_ocnt, consumeOutput_ocnt]
  exact Nat.sub_add_cancel (Nat.pos_of_ne_zero ho)

end Sys2Proof.Machine

/-! PROOFS. The statements on `permute` and its tables (spec/41_permutation.md): the output position by position, what
makes one table undo another, the counts of the tables' entries, and the known-answer vector of the source. -/

namespace Sys2Proof.Machine

/-! ### The function -/

/-- Settles O26: `getMsbD_permute` counts the same positions from 0. -/
theorem permuteCopiesPositions : Obligations.PermuteCopiesPositions :=
  ⟨fun _ _ bits T => ⟨T.length_entries, getMsbD_permute bits T⟩, by decide⟩

/-! ### Tables that undo each other -/

/-- `U{T{i}} = i` for every `i`: where `T` copies position `i` from, `U` copies back from `i`
(spec/41_permutation.md R120). -/
def PermTable.SendsBack {n : Nat} (U T : PermTable n n) : Prop :=
  ∀ i : Fin n, U.entries[T.entry i - 1]? = some (i.val + 1)

/-- Permuting by `U` is undone by permuting by `T`, position by position: `B{U{T{i}}} = B{i}`. -/
theorem permute_permute_of_sendsBack {n : Nat} {U T : PermTable n n} (h : U.SendsBack T) (B : BitVec n) :
    permute (permute B U) T = B :=
  eq_of_positions _ _ fun i => by
    obtain ⟨hin, hback⟩ := List.getElem?_eq_some_iff.mp (h i)
    rw [U.length_entries] at hin
    calc (permute (permute B U) T).getMsbD i.val
        = (permute B U).getMsbD (T.entry i - 1) := getMsbD_permute _ T i
      _ = B.getMsbD (U.entry ⟨T.entry i - 1, hin⟩ - 1) := getMsbD_permute B U ⟨T.entry i - 1, hin⟩
      _ = B.getMsbD i.val := by rw [PermTable.entry, hback, Nat.add_sub_cancel]

theorem ipInvTable_sendsBack_ipTable : ipInvTable.SendsBack ipTable := by unfold PermTable.SendsBack; decide

theorem ipTable_sendsBack_ipInvTable : ipTable.SendsBack ipInvTable := by unfold PermTable.SendsBack; decide

/-- Settles O27: each of the two tables sends back what the other copies. -/
theorem initialPermutationIsInverted : Obligations.InitialPermutationIsInverted :=
  ⟨fun B => ⟨permute_permute_of_sendsBack ipTable_sendsBack_ipInvTable B,
    permute_permute_of_sendsBack ipInvTable_sendsBack_ipTable B⟩,
    fun i => ⟨ipInvTable_sendsBack_ipTable i, ipTable_sendsBack_ipInvTable i⟩⟩

/-! ### The entries of the six tables -/

/-- Settles O28, table by table. -/
theorem tableStructure : Obligations.TableStructure :=
  ⟨by decide, by decide, by decide, by decide, by decide, by decide, ipTable.length_entries, ipInvTable.length_entries,
    eTable.length_entries, pTable.length_entries, pc1Table.length_entries, pc2Table.length_entries⟩

/-! ### The known-answer vector -/

/-- The key schedule of the source's key, as spec/95_test_vectors.md section 1.1 prints it. -/
theorem keySchedule_of_knownKey :
    keySchedule 0x133457799BBCDFF1#64 =
      #v[0x1B02EFFC7072#48, 0x79AED9DBC9E5#48, 0x55FC8A42CF99#48, 0x72ADD6DB351D#48, 0x7CEC07EB53A8#48,
        0x63A53E507B2F#48, 0xEC84B7F618BC#48, 0xF78A3AC13BFB#48, 0xE0DBEBEDE781#48, 0xB1F347BA464F#48,
        0x215FD3DED386#48, 0x7571F59467E9#48, 0x97C5D1FABA41#48, 0x5F43B7F2E73A#48, 0xBF918D3D3F0A#48,
        0xCB3D8B0E17F5#48] := by
  decide +kernel

/-- Settles O37, by evaluation under the subkeys of `keySchedule_of_knownKey`. It tests the table entries, which the
model takes from the spec as general knowledge (assumption entry 12). -/
theorem knownAnswerVector : Obligations.KnownAnswerVector := by
  rw [Obligations.KnownAnswerVector, keySchedule_of_knownKey]
  exact ⟨by decide +kernel, by decide +kernel⟩

end Sys2Proof.Machine

/-! PROOFS. The statements on the key schedule (spec/42_keyschedule.md): the schedule as a function of the key, then
LOADKEY's accepting step, its micro-step, its one-step meaning, and that nothing else writes the subkeys. -/

namespace Sys2Proof.Machine

/-! ### The shifts -/

/-- The shifts so far, the third row of R132: every half is `rotl` of the first one by this much. -/
def totalShift : Nat → Nat
  | 0 => 0
  | i + 1 => totalShift i + shiftAmount (i + 1)

theorem rotl_zero {n : Nat} (s : BitVec n) : rotl s 0 = s :=
  eq_of_positions _ _ fun i => by rw [getMsbD_rotl s 0 _ i.isLt, Nat.zero_add, Nat.mod_eq_of_lt i.isLt]

/-- A full turn is no rotation. -/
theorem rotl_width {n : Nat} (s : BitVec n) : rotl s n = s :=
  eq_of_positions _ _ fun i => by rw [getMsbD_rotl s n _ i.isLt, Nat.add_mod_left, Nat.mod_eq_of_lt i.isLt]

/-- Rotations add up. -/
theorem rotl_rotl {n : Nat} (s : BitVec n) (a b : Nat) : rotl (rotl s a) b = rotl s (a + b) :=
  eq_of_positions _ _ fun i => by
    rw [getMsbD_rotl _ b _ i.isLt, getMsbD_rotl s a _ (Nat.mod_lt _ i.pos), getMsbD_rotl s (a + b) _ i.isLt,
      Nat.add_mod_mod, Nat.add_assoc]

/-- A half after `i` rounds is the first half rotated once, by all the shifts so far (spec/42_keyschedule.md R132). -/
theorem halfAfter_eq_rotl (h : HalfKey) (i : Nat) : halfAfter h i = rotl h (totalShift i) := by
  induction i with
  | zero => exact (rotl_zero h).symm
  | succ i ih => rw [halfAfter_succ, ih, rotl_rotl, totalShift]

/-- Settles O32: the running sums are the row that R132 prints, and the last one is a full turn. -/
theorem shiftsReturnToTheStart : Obligations.ShiftsReturnToTheStart := by
  intro h
  have hrow : ∀ i : Fin 17,
      totalShift i.val = [0, 1, 2, 4, 6, 8, 10, 12, 14, 15, 17, 19, 21, 23, 25, 27, 28][i.val]'(by simp) := by decide
  have hturn : totalShift 16 = 28 := by decide
  exact ⟨by rw [halfAfter_eq_rotl, hturn, rotl_width], fun i => by rw [halfAfter_eq_rotl, hrow]⟩

/-! ### Keys with constant halves -/

/-- No rotation changes a half of equal bits. -/
theorem rotl_of_constant {n : Nat} {s : BitVec n} (hs : s = 0#n ∨ s = BitVec.allOnes n) (k : Nat) : rotl s k = s :=
  eq_of_positions _ _ fun i => by
    have hmod : (k + i.val) % n < n := Nat.mod_lt _ i.pos
    rw [getMsbD_rotl s k _ i.isLt]
    rcases hs with rfl | rfl
    · simp only [BitVec.getMsbD_zero]
    · simp only [BitVec.getMsbD_allOnes, hmod, i.isLt]

/-- A key whose halves never change has one subkey (spec/42_keyschedule.md R139). -/
theorem subkeyAt_of_constant {X : Block} (hc : keyC0 X = 0#28 ∨ keyC0 X = BitVec.allOnes 28)
    (hd : keyD0 X = 0#28 ∨ keyD0 X = BitVec.allOnes 28) (i : Nat) : subkeyAt X i = subkeyOf (keyC0 X) (keyD0 X) := by
  rw [subkeyAt, halfAfter_eq_rotl, halfAfter_eq_rotl, rotl_of_constant hc, rotl_of_constant hd]

/-- Settles O33: all sixteen are the one subkey. -/
theorem constantHalvesGiveEqualSubkeys : Obligations.ConstantHalvesGiveEqualSubkeys := by
  intro X hc hd i j
  rw [getElem_keySchedule, getElem_keySchedule, subkeyAt_of_constant hc hd, subkeyAt_of_constant hc hd]

/-! ### The bits that PC1 drops -/

/-- `permute` reads its input at the entries of the table only (spec/41_permutation.md R110). -/
theorem permute_congr {n m : Nat} {T : PermTable n m} {X Y : BitVec n}
    (h : ∀ i : Fin m, pos X (T.entry i) = pos Y (T.entry i)) : permute X T = permute Y T :=
  eq_of_positions _ _ fun i => by rw [getMsbD_permute, getMsbD_permute]; exact h i

/-- PC1 has no entry that is a multiple of 8 (spec/42_keyschedule.md R137). -/
theorem pc1Table_entry_mod_eight (i : Fin 56) : pc1Table.entry i % 8 ≠ 0 := by
  revert i; decide

/-- The schedule reads the key through PC1 alone (spec/42_keyschedule.md R131). -/
theorem keySchedule_congr {X Y : Block} (h : permute X pc1Table = permute Y pc1Table) :
    keySchedule X = keySchedule Y := by
  simp only [keySchedule, subkeyAt, keyC0, keyD0, h]

/-- Settles O34: PC1 drops the positions that are multiples of 8. -/
theorem parityBitsHaveNoEffect : Obligations.ParityBitsHaveNoEffect := by
  intro X Y h
  refine keySchedule_congr (permute_congr fun i => ?_)
  obtain ⟨hlo, hhi⟩ := pc1Table.entry_range i
  exact h _ hlo hhi (pc1Table_entry_mod_eight i)

/-! ### LOADKEY -/

/-- LOADKEY with eight bytes starts the schedule (spec/42_keyschedule.md R133). -/
theorem exec_loadkey_of_complete {s : State} (h : s.icnt = 8) : exec .loadkey s = .next (startKeySchedule s) :=
  if_pos ((inputComplete_iff s).mpr h)

/-- LOADKEY with any other count faults (spec/42_keyschedule.md R133). -/
theorem exec_loadkey_of_incomplete {s : State} (h : s.icnt ≠ 8) :
    exec .loadkey s = .next (takeFault .invalidKeyError s) :=
  if_neg (mt (inputComplete_iff s).mp h)

/-- Settles O16: both answers are the states that the statement writes out, with free values for `K`. -/
theorem loadkeyAcceptsExactlyEightBytes : Obligations.LoadkeyAcceptsExactlyEightBytes :=
  ⟨fun _ h => decode_of_opField h (by decide), fun _ h => ⟨_, _, exec_loadkey_of_complete h⟩,
    fun _ h => ⟨_, _, exec_loadkey_of_incomplete h⟩, rfl⟩

/-! ### The micro-step -/

/-- A step of a running key schedule is its micro-step, whatever the host presents, unless that is a reset
(spec/42_keyschedule.md R134). -/
theorem step_of_ks {s : State} {i : Fin 16} (hp : s.phase = .ks) (hk : s.keyValid = false)
    (hi : s.rndctr.val = i.val) (hr : rstPin s = false) : step s = .next (keyMicroStep i (beginStep s)) := by
  have hlt : s.rndctr.val < 16 := hi ▸ i.isLt
  have hround : ⟨s.rndctr.val, hlt⟩ = i := Fin.ext hi
  simp only [step, nextAction_of_not_rstPin s hr, sequencerAction_ks hp hk hlt, hround]

/-- A micro-step from `C_(i-1)` and `D_(i-1)` of a key leaves its `C_i`, `D_i` and `K[i] = subkey_i`
(spec/42_keyschedule.md R134). -/
theorem keyRound_of_halves {s : State} {i : Fin 16} {X : Block} (hc : s.c = halfAfter (keyC0 X) i.val)
    (hd : s.d = halfAfter (keyD0 X) i.val) :
    (keyRound i s).c = halfAfter (keyC0 X) (i.val + 1) ∧ (keyRound i s).d = halfAfter (keyD0 X) (i.val + 1) ∧
      (keyRound i s).k[i.val] = subkeyAt X (i.val + 1) := by
  simp only [keyRound_c, keyRound_d, keyRound_k, Vector.getElem_set_self, hc, hd, subkeyAt, halfAfter_succ, and_self]

/-- Settles O22: the sixteenth micro-step is a round that ends the operation, each other one is the round alone. -/
theorem keyScheduleMicroStep : Obligations.KeyScheduleMicroStep := by
  intro s n hp hk hn hr
  refine ⟨_, step_of_ks hp hk hn hr, ?_⟩
  by_cases hlast : n.val = 15
  · rw [keyMicroStep_last n _ hlast, if_pos hlast]
    exact ⟨rfl, rfl, rfl, rfl, ⟨rfl, rfl, rfl, rfl, rfl⟩, fun X => keyRound_of_halves, rfl⟩
  · rw [keyMicroStep_earlier n _ hlast, if_neg hlast]
    exact ⟨rfl, rfl, rfl, rfl, ⟨hk, hp, rfl, rfl, rfl⟩, fun X => keyRound_of_halves, rfl⟩

/-! ### The command level -/

/-- Settles O48: the run of `completesIn_command`, with the start of its first step written out. -/
theorem microStepsRefineTheCommand : Obligations.MicroStepsRefineTheCommand := by
  intro s w rest hp ⟨hin, hwait⟩
  obtain ⟨hrun, -⟩ := completesIn_command hp ⟨hin, hwait⟩
  rwa [beginStep_accept hp hin] at hrun

/-! ### The loaded key -/

/-- Settles O43, by the kinds of step: an accepted command other than LOADKEY has the frame of O21, a key schedule does
not run while there is a key, and the other steps do not write the key. -/
theorem subkeysAreImmutable : Obligations.SubkeysAreImmutable := by
  intro s t _ hk h hr hload
  rcases step_cases h hr with ⟨w, rest, hp, hin, he⟩ | ⟨-, rfl, -⟩ | ⟨_, -, hk', -, -⟩ | ⟨i, -, -, -, rfl⟩ |
    ⟨-, -, -, rfl⟩
  · obtain ⟨-, -, -, -, hkey, -⟩ := commandFrames _ _ _ he
    obtain ⟨hstore, hvalid, -⟩ := hkey (hload w rest hp hin)
    exact ⟨hvalid.trans hk, hstore⟩
  · exact ⟨hk, rfl⟩
  · exact nomatch hk.symm.trans hk'
  · exact ⟨hk, rfl⟩
  · exact ⟨hk, rfl⟩

end Sys2Proof.Machine

/-! PROOFS. The statements on the f-function, its S-boxes and the round (spec/43_feistel.md): where the groups and the
S-box outputs lie, how a round is undone, and how a complemented key and block pass through the whole cipher
(spec/95_test_vectors.md section 3.6). -/

namespace Sys2Proof.Machine

/-! ### The S-boxes -/

/-- Every row of every box is a permutation of 0 to 15 (spec/43_feistel.md R153), read off the entries. -/
theorem count_sboxEntry_row (i : Fin 8) (row : Fin 4) :
    ∀ v ∈ List.range 16, ((List.finRange 16).map fun col => sboxEntry (sbox i) row col).count v = 1 := by
  revert i row; decide +kernel

/-- The outer two elements of a group are bits 5 and 0 of its number (spec/43_feistel.md R152, R153). -/
theorem sboxRow_val (g : BitVec 6) : (sboxRow g).val = 2 * (g.getLsbD 5).toNat + (g.getLsbD 0).toNat := rfl

/-- The inner four elements of a group are bits 4 to 1 of its number (spec/43_feistel.md R152, R153). -/
theorem sboxCol_val (g : BitVec 6) : (sboxCol g).val = (g.extractLsb' 1 4).toNat := by
  revert g; decide

/-- Settles O29: the rows by their entries, the addressing by the elements of a group. -/
theorem sboxShapeAndAddressing : Obligations.SboxShapeAndAddressing :=
  ⟨count_sboxEntry_row, fun g => ⟨sboxRow_val g, sboxCol_val g⟩⟩

/-! ### Slices of concatenations -/

/-- A slice that lies in the first of two sequences. -/
theorem slice_append_left {n m lo len : Nat} (a : BitVec n) (b : BitVec m) (hlo : 1 ≤ lo) (hin : lo + len ≤ n + 1) :
    slice (a ++ b) lo len = slice a lo len :=
  eq_of_positions _ _ fun i => by
    rw [getMsbD_slice _ lo len i hlo (by omega) i.isLt, getMsbD_slice a lo len i hlo hin i.isLt,
      BitVec.getMsbD_append, if_neg (by omega)]

/-- The slice that is the second of two sequences. -/
theorem slice_append_right {n m lo : Nat} (a : BitVec n) (b : BitVec m) (hlo : lo = n + 1) :
    slice (a ++ b) lo m = b :=
  eq_of_positions _ _ fun i => by
    rw [getMsbD_slice _ lo m i (by omega) (by omega) i.isLt, BitVec.getMsbD_append, if_pos (by omega), hlo]
    congr 1
    omega

theorem slice_all {n lo : Nat} (a : BitVec n) (hlo : lo = 1) : slice a lo n = a :=
  eq_of_positions _ _ fun i => by
    rw [hlo, getMsbD_slice a 1 n i le_rfl (by omega) i.isLt, Nat.sub_self, Nat.zero_add]

/-! ### The groups -/

/-- Position `j + 1` of group `i + 1` is position `6i + j + 1` of the 48-bit value (spec/43_feistel.md R150). -/
theorem pos_group (x : Subkey) (i : Fin 8) (j : Fin 6) :
    pos (group x i) (j.val + 1) = pos x (6 * i.val + j.val + 1) :=
  getMsbD_slice x (6 * i.val + 1) 6 j.val (by omega) (by omega) j.isLt

/-- E reads `R` in rows of six cyclic positions, each row four further on (spec/43_feistel.md R151). -/
theorem eTable_entry_group (i : Fin 8) (j : Fin 6) :
    eTable.entry ⟨6 * i.val + j.val, by omega⟩ = (4 * i.val + j.val + 31) % 32 + 1 := by
  revert i j; decide

theorem pos_xor {n : Nat} (a b : BitVec n) (i : Nat) : pos (a ^^^ b) i = Bool.xor (pos a i) (pos b i) :=
  BitVec.getMsbD_xor

/-- The output of S-box `i + 1` fills positions `4i + 1 .. 4i + 4` (spec/43_feistel.md R150). -/
theorem slice_sboxLayer (x : Subkey) (i : Fin 8) :
    slice (sboxLayer x) (4 * i.val + 1) 4 = sboxOut i (group x i) := by
  fin_cases i
  all_goals
    simp (disch := omega) only [sboxLayer, slice_append_left, slice_append_right, slice_all]
    rfl

/-- Settles O30: E's rows give the cyclic positions, and the outputs lie side by side. -/
theorem groupsFollowTheExpansion : Obligations.GroupsFollowTheExpansion := by
  refine ⟨fun R k i j => ?_, slice_sboxLayer⟩
  have hexpand : pos (permute R eTable) (6 * i.val + j.val + 1) = pos R ((4 * i.val + j.val + 31) % 32 + 1) := by
    rw [← eTable_entry_group]
    exact getMsbD_permute R eTable ⟨6 * i.val + j.val, by omega⟩
  rw [pos_group, pos_xor, hexpand]

/-! ### The round -/

/-- Settles O31: `newL` is `R`, and the second xor with `f(R, k)` cancels the first. -/
theorem roundIsUndoneByTheSameSubkey : Obligations.RoundIsUndoneByTheSameSubkey := by
  intro L R newL newR k h
  obtain ⟨rfl, rfl⟩ := Prod.mk.inj h
  exact ⟨rfl, by rw [BitVec.xor_assoc, BitVec.xor_self, BitVec.xor_zero]⟩

/-! ### Complements -/

theorem getMsbD_not_of_lt {n i : Nat} (a : BitVec n) (hi : i < n) : (~~~a).getMsbD i = !a.getMsbD i := by
  rw [BitVec.getMsbD_not, decide_eq_true hi, Bool.true_and]

/-- Copied positions keep a complement (spec/41_permutation.md R110). -/
theorem permute_not {n m : Nat} (X : BitVec n) (T : PermTable n m) : permute (~~~X) T = ~~~permute X T :=
  eq_of_positions _ _ fun i => by
    obtain ⟨hlo, hhi⟩ := T.entry_range i
    rw [getMsbD_permute, getMsbD_not_of_lt X (by omega), getMsbD_not_of_lt _ i.isLt, getMsbD_permute]

theorem slice_not {n lo len : Nat} (s : BitVec n) (hlo : 1 ≤ lo) (hin : lo + len ≤ n + 1) :
    slice (~~~s) lo len = ~~~slice s lo len :=
  eq_of_positions _ _ fun i => by
    rw [getMsbD_slice _ lo len i hlo hin i.isLt, getMsbD_not_of_lt s (by omega), getMsbD_not_of_lt _ i.isLt,
      getMsbD_slice s lo len i hlo hin i.isLt]

theorem rotl_not {n : Nat} (s : BitVec n) (k : Nat) : rotl (~~~s) k = ~~~rotl s k :=
  eq_of_positions _ _ fun i => by
    rw [getMsbD_rotl _ k i i.isLt, getMsbD_not_of_lt s (Nat.mod_lt _ i.pos), getMsbD_not_of_lt _ i.isLt,
      getMsbD_rotl s k i i.isLt]

/-! ### The complemented key -/

theorem keyC0_not (X : Block) : keyC0 (~~~X) = ~~~keyC0 X := by
  rw [keyC0, permute_not, slice_not _ (by decide) (by decide), keyC0]

theorem keyD0_not (X : Block) : keyD0 (~~~X) = ~~~keyD0 X := by
  rw [keyD0, permute_not, slice_not _ (by decide) (by decide), keyD0]

theorem halfAfter_not (h : HalfKey) (i : Nat) : halfAfter (~~~h) i = ~~~halfAfter h i := by
  rw [halfAfter_eq_rotl, rotl_not, halfAfter_eq_rotl]

theorem subkeyOf_not (c d : HalfKey) : subkeyOf (~~~c) (~~~d) = ~~~subkeyOf c d := by
  rw [subkeyOf, ← BitVec.not_append, permute_not, subkeyOf]

theorem subkeyAt_not (X : Block) (i : Nat) : subkeyAt (~~~X) i = ~~~subkeyAt X i := by
  rw [subkeyAt, keyC0_not, keyD0_not, halfAfter_not, halfAfter_not, subkeyOf_not, subkeyAt]

/-- Every subkey of the complemented key is the complement, whichever round reads it. -/
theorem roundKey_keySchedule_not (X : Block) (m : Mode) (i : Fin 16) :
    roundKey (keySchedule (~~~X)) m i = ~~~roundKey (keySchedule X) m i := by
  rw [roundKey, getElem_keySchedule, subkeyAt_not, roundKey, getElem_keySchedule]

/-! ### The complemented block -/

/-- Both halves complemented. -/
def complementHalves (LR : Half × Half) : Half × Half := (~~~LR.1, ~~~LR.2)

/-- The f-function sees its half and its subkey only through an xor, where two complements cancel
(spec/95_test_vectors.md section 3.6). -/
theorem feistel_not (R : Half) (k : Subkey) : feistel (~~~R) (~~~k) = feistel R k := by
  rw [feistel, permute_not, ← BitVec.not_xor_left, ← BitVec.not_xor_right, BitVec.not_not, feistel]

theorem round_not (LR : Half × Half) (k : Subkey) :
    round (complementHalves LR) (~~~k) = complementHalves (round LR k) := by
  simp only [round, complementHalves, feistel_not, BitVec.not_xor_left]

theorem startHalves_not (B : Block) : startHalves (~~~B) = complementHalves (startHalves B) := by
  rw [startHalves, permute_not, slice_not _ (by decide) (by decide), slice_not _ (by decide) (by decide)]
  rfl

theorem halvesAfter_not (X : Block) (m : Mode) (LR : Half × Half) (n : Nat) :
    halvesAfter (keySchedule (~~~X)) m (complementHalves LR) n =
      complementHalves (halvesAfter (keySchedule X) m LR n) :=
  List.foldl_hom complementHalves fun lr i => by rw [roundKey_keySchedule_not, round_not]

theorem finalBlock_not (LR : Half × Half) : finalBlock (complementHalves LR) = ~~~finalBlock LR := by
  rw [finalBlock, complementHalves, ← BitVec.not_append, permute_not, finalBlock]

/-- Settles O38: the complement passes through IP, through every round under the complemented subkeys, and through the
final permutation. -/
theorem complementPassesThrough : Obligations.ComplementPassesThrough := by
  intro X B m
  rw [cryptBlock, startHalves_not, halvesAfter_not, finalBlock_not, cryptBlock]

end Sys2Proof.Machine

/-! PROOFS. The statements on the block cipher (spec/44_blockcipher.md): decryption undoes encryption under any subkeys,
then ENC and DEC, their micro-steps, and the sequencer as a whole. -/

namespace Sys2Proof.Machine

/-! ### Decryption undoes encryption -/

/-- The other direction of the cipher (spec/44_blockcipher.md R171). -/
def Mode.other : Mode → Mode
  | .encrypt => .decrypt
  | .decrypt => .encrypt

@[simp] theorem Mode.other_other (m : Mode) : m.other.other = m := by cases m <;> rfl

/-- The other direction reads the subkeys in reverse order (spec/44_blockcipher.md R171). -/
theorem roundKey_other (K : SubkeyStore) (m : Mode) (i : Fin 16) : roundKey K m.other i = roundKey K m i.rev := by
  cases m with
  | encrypt => rfl
  | decrypt => simp only [roundKey, Mode.other, roundKeyIndex, Fin.rev_rev]

/-- A round on the swapped result of a round, under the same subkey, gives the swapped halves back
(spec/43_feistel.md R163). -/
theorem round_swap_round (LR : Half × Half) (k : Subkey) : round (round LR k).swap k = LR.swap := by
  obtain ⟨hR, hL⟩ := roundIsUndoneByTheSameSubkey LR.1 LR.2 _ _ k rfl
  exact Prod.ext hR.symm hL.symm

/-- The sixteen rounds are undone one by one, from the last: `n` rounds in the other direction on the swapped result
leave the swapped halves after `16 - n` (spec/44_blockcipher.md R172). -/
theorem halvesAfter_other_swap (K : SubkeyStore) (m : Mode) (LR : Half × Half) (n : Fin 17) :
    halvesAfter K m.other (halvesAfter K m LR 16).swap n.val = (halvesAfter K m LR n.rev.val).swap := by
  induction n using Fin.induction with
  | zero => rfl
  | succ i ih =>
    rw [Fin.val_castSucc, Fin.rev_castSucc, Fin.val_succ, halvesAfter_succ] at ih
    rw [Fin.val_succ, halvesAfter_succ, ih, roundKey_other, round_swap_round, Fin.rev_succ, Fin.val_castSucc]

/-- The two halves of a block, side by side, are the block. -/
theorem slice_append_slice_halves (X : Block) : slice X 1 32 ++ slice X 33 32 = X := by
  have h : 32 = 0 + 32 := rfl
  rw [slice, slice, BitVec.extractLsb'_append_extractLsb'_eq_extractLsb' h, BitVec.extractLsb'_eq_self]

/-- The final permutation and the swap are undone by the initial permutation (spec/44_blockcipher.md R172). -/
theorem startHalves_finalBlock (LR : Half × Half) : startHalves (finalBlock LR) = LR.swap := by
  rw [startHalves, finalBlock, permute_permute_of_sendsBack ipInvTable_sendsBack_ipTable,
    slice_append_left _ _ (by decide) (by decide), slice_all _ rfl, slice_append_right _ _ rfl]
  rfl

/-- The halves after the initial permutation, swapped, are put together to the block. -/
theorem finalBlock_swap_startHalves (X : Block) : finalBlock (startHalves X).swap = X := by
  rw [finalBlock, startHalves, Prod.snd_swap, Prod.fst_swap, slice_append_slice_halves,
    permute_permute_of_sendsBack ipTable_sendsBack_ipInvTable]

/-- The other direction undoes a block operation, under any subkeys (spec/44_blockcipher.md R172). -/
theorem cryptBlock_other (K : SubkeyStore) (m : Mode) (X : Block) : cryptBlock (cryptBlock X K m) K m.other = X := by
  rw [cryptBlock, cryptBlock, startHalves_finalBlock]
  exact (congrArg finalBlock (halvesAfter_other_swap K m (startHalves X) 16)).trans (finalBlock_swap_startHalves X)

/-- Settles O35: both orders are `cryptBlock_other`, and the halves those of `halvesAfter_other_swap`. -/
theorem decryptionUndoesEncryption : Obligations.DecryptionUndoesEncryption := by
  refine fun K B => ⟨cryptBlock_other K .encrypt B, cryptBlock_other K .decrypt B, fun n hn => ?_⟩
  have hundo := halvesAfter_other_swap K .encrypt (startHalves B) ⟨n, by omega⟩
  simp only [Fin.val_rev, Nat.reduceSubDiff] at hundo
  rw [encryptBlock, cryptBlock, startHalves_finalBlock]
  exact hundo

/-- Settles O36: the other direction is an inverse on both sides. -/
theorem eachDirectionIsABijection : Obligations.EachDirectionIsABijection := by
  refine fun K m => Function.bijective_iff_has_inverse.mpr ⟨fun Y => cryptBlock Y K m.other, cryptBlock_other K m, ?_⟩
  intro Y
  simpa only [Mode.other_other] using cryptBlock_other K m.other Y

/-! ### ENC and DEC, accepting step -/

/-- The command of each direction (spec/44_blockcipher.md R174, R175). -/
def Mode.command : Mode → Instr
  | .encrypt => .enc
  | .decrypt => .dec

/-- The fault of each direction on a buffer that is no block (spec/44_blockcipher.md R174, R175). -/
def Mode.lengthFault : Mode → CmdFault
  | .encrypt => .blockLengthFault
  | .decrypt => .invalidInputError

/-- ENC and DEC are one rule but for the mode and the length fault (spec/44_blockcipher.md R175). -/
theorem exec_modeCommand (m : Mode) (s : State) :
    exec m.command s =
      if !s.keyValid then .next (takeFault .noKeyFault s)
      else if inputComplete s then .next (startCipher m s)
      else .next (takeFault m.lengthFault s) := by
  cases m <;> rfl

/-- The key is tested first, whatever the buffer holds (spec/60_exceptions.md R228). -/
theorem exec_modeCommand_of_no_key (m : Mode) {s : State} (hk : s.keyValid = false) :
    exec m.command s = .next (takeFault .noKeyFault s) := by
  rw [exec_modeCommand, hk]
  rfl

/-- With a key, the length is tested (spec/44_blockcipher.md R174, R175). -/
theorem exec_modeCommand_of_incomplete (m : Mode) {s : State} (hk : s.keyValid = true) (hc : s.icnt ≠ 8) :
    exec m.command s = .next (takeFault m.lengthFault s) := by
  rw [exec_modeCommand, hk]
  exact if_neg (mt (inputComplete_iff s).mp hc)

/-- Settles O17: the three paths of the rule at `MODE` 0. -/
theorem encChecksThenStartsTheRounds : Obligations.EncChecksThenStartsTheRounds :=
  ⟨fun _ h => decode_of_opField h (by decide), fun _ => exec_modeCommand_of_no_key .encrypt,
    fun _ => exec_modeCommand_of_incomplete .encrypt, fun _ => exec_startCipher (.inl ⟨rfl, rfl⟩), rfl, rfl⟩

/-- Settles O18: the three paths of the rule at `MODE` 1. -/
theorem decChecksThenStartsTheRounds : Obligations.DecChecksThenStartsTheRounds :=
  ⟨fun _ h => decode_of_opField h (by decide), fun _ => exec_modeCommand_of_no_key .decrypt,
    fun _ => exec_modeCommand_of_incomplete .decrypt, fun _ => exec_startCipher (.inr ⟨rfl, rfl⟩), rfl, rfl⟩

/-! ### The micro-steps -/

/-- A step of a running block operation before its sixteenth round is a round, whatever the host presents, unless that
is a reset (spec/44_blockcipher.md R176). -/
theorem step_of_rnd {s : State} {i : Fin 16} (hp : s.phase = .rnd) (hk : s.keyValid = true)
    (hi : s.rndctr.val = i.val) (hr : rstPin s = false) : step s = .next (roundMicroStep i (beginStep s)) := by
  have hlt : s.rndctr.val < 16 := hi ▸ i.isLt
  have hround : ⟨s.rndctr.val, hlt⟩ = i := Fin.ext hi
  simp only [step, nextAction_of_not_rstPin s hr, sequencerAction_rnd hp hk hlt, hround]

/-- A step of a block operation after its sixteenth round is the final one (spec/44_blockcipher.md R177). -/
theorem step_of_rnd_sixteen {s : State} (hp : s.phase = .rnd) (hk : s.keyValid = true) (h16 : s.rndctr.val = 16)
    (hr : rstPin s = false) : step s = .next (finalMicroStep (beginStep s)) := by
  simp only [step, nextAction_of_not_rstPin s hr, sequencerAction_final hp hk h16]

/-- `K[17 - n]`, counted from 0 (spec/44_blockcipher.md R171). -/
theorem roundKey_decrypt (K : SubkeyStore) (i : Fin 16) :
    roundKey K .decrypt i = K[15 - i.val]'(by omega) := by
  simp only [roundKey, roundKeyIndex, Fin.val_rev, Nat.reduceSubDiff]

/-- Settles O23: the step is the round micro-step, and its halves are `round` of the halves before. (The model's
function has the obligation's own name.) -/
theorem theRoundMicroStep : Obligations.RoundMicroStep := by
  intro s n hp hk hn hr
  refine ⟨_, step_of_rnd hp hk hn hr, rfl, rfl, fun hm => ?_, fun hm => ?_, fun X hX => ?_, rfl⟩
  · rw [roundMicroStep_r, beginStep_mode, hm]
    rfl
  · rw [roundMicroStep_r, beginStep_mode, hm, roundKey_decrypt]
    rfl
  · rw [halvesAfter_succ, ← hX]
    rfl

/-- Settles O24: the final micro-step writes what the statement writes out. (The model's function has the obligation's
own name.) -/
theorem theFinalMicroStep : Obligations.FinalMicroStep := fun _ => step_of_rnd_sixteen

/-! ### The sequencer -/

/-- An idle core that is presented no command only ends the response pulse (assumption entry 6): with no command at the
head of the inputs, the sequencer is in the last branch of its idle phase. -/
theorem step_of_wait {s : State} (hp : s.phase = .idle) (hnone : ∀ w rest, s.inputs ≠ .command w :: rest)
    (hr : rstPin s = false) : step s = .next (beginStep s) := by
  have ha : sequencerAction s = .wait := by simp only [sequencerAction, hp]
  simp only [step, nextAction_of_not_rstPin s hr, ha]

/-- Every accepting step has a next state (spec/30_encoding.md R74). -/
theorem exists_exec (i : Instr) (s : State) : ∃ t, exec i s = .next t := by
  rcases command_cases i s with ⟨-, he⟩ | ⟨-, he, -⟩ | ⟨m, -, -, he, -⟩ <;> exact ⟨_, he⟩

/-- No step is missing from the states that meet the sequencer's invariant (spec/44_blockcipher.md R180). -/
theorem exists_step {s : State} (hinv : ControlInv s) : ∃ t, step s = .next t := by
  cases hr : rstPin s with
  | true => exact ⟨_, step_of_rstPin s hr⟩
  | false =>
    rw [step, nextAction_of_not_rstPin s hr]
    rcases sequencerAction_cases s with ⟨w, -, ha, -⟩ | ⟨ha, -⟩ | ⟨i, ha, -⟩ | ⟨i, ha, -⟩ | ⟨ha, -⟩ | ⟨-, hstuck⟩
    · rw [ha]
      exact exists_exec _ _
    · exact ⟨_, by rw [ha]⟩
    · exact ⟨_, by rw [ha]⟩
    · exact ⟨_, by rw [ha]⟩
    · exact ⟨_, by rw [ha]⟩
    · exact absurd hinv hstuck

/-- The sixteenth key-schedule micro-step ends the operation, every other one goes on with it
(spec/42_keyschedule.md R134). -/
theorem keyMicroStep_phase (i : Fin 16) (s : State) :
    (keyMicroStep i s).phase = if i.val = 15 then .idle else s.phase := by
  unfold keyMicroStep
  split <;> rfl

@[simp] theorem keyMicroStep_rndctr (i : Fin 16) (s : State) : (keyMicroStep i s).rndctr = i.succ := by
  unfold keyMicroStep
  split <;> rfl

@[simp] theorem keyMicroStep_inputs (i : Fin 16) (s : State) : (keyMicroStep i s).inputs = s.inputs := by
  unfold keyMicroStep
  split <;> rfl

/-- ENC or DEC with a key and a block starts the rounds of some mode (spec/44_blockcipher.md R174, R175). -/
theorem exists_exec_startCipher {i : Instr} {s : State} (hi : i = .enc ∨ i = .dec) (hk : s.keyValid = true)
    (hc : s.icnt = 8) : ∃ m, exec i s = .next (startCipher m s) := by
  rcases hi with rfl | rfl
  · exact ⟨.encrypt, exec_startCipher (.inl ⟨rfl, rfl⟩) hk hc⟩
  · exact ⟨.decrypt, exec_startCipher (.inr ⟨rfl, rfl⟩) hk hc⟩

/-- A command that starts no operation leaves the sequencer alone (spec/44_blockcipher.md R180). -/
theorem sequencer_kept_of_exec {i : Instr} {s t : State} (h : exec i s = .next t)
    (hload : ¬ (i = .loadkey ∧ s.icnt = 8))
    (hcipher : ¬ ((i = .enc ∨ i = .dec) ∧ s.keyValid = true ∧ s.icnt = 8)) :
    t.phase = s.phase ∧ t.rndctr = s.rndctr := by
  rcases exec_next_cases h with ⟨-, rfl⟩ | ⟨b, -, rfl⟩ | ⟨hi, hc, -⟩ | ⟨m, hi, hk, hc, -⟩ | ⟨ho, -, rfl⟩ | ⟨f, -, rfl⟩
  · simp
  · simp
  · exact absurd ⟨hi, hc⟩ hload
  · exact absurd ⟨hi.imp And.left And.left, hk, hc⟩ hcipher
  · simp
  · simp

/-- Settles O46, row by row of R180's table: each row names the phase, so the step it takes is known. -/
theorem sequencerTransitions : Obligations.SequencerTransitions := by
  intro s hinv
  obtain ⟨t, ht⟩ := exists_step hinv
  obtain ⟨hrnd, hks⟩ := hinv
  refine ⟨t, ht, fun hr => ?_, fun hr => ⟨fun hp => ?_, fun hp hle => ?_, fun hp h16 => ?_, fun hp hnone => ?_,
    fun w rest hp hin => ?_⟩⟩
  · obtain rfl := Host.Outcome.next.inj ((step_of_rstPin s hr).symm.trans ht)
    exact ⟨rfl, rfl⟩
  · obtain ⟨hk, hle⟩ := hks hp
    have hstep := step_of_ks (i := ⟨s.rndctr.val, by omega⟩) hp hk rfl hr
    obtain rfl := Host.Outcome.next.inj (hstep.symm.trans ht)
    exact ⟨by rw [keyMicroStep_rndctr, Fin.val_succ], by rw [keyMicroStep_phase, beginStep_phase, hp]⟩
  · have hstep := step_of_rnd (i := ⟨s.rndctr.val, by omega⟩) hp (hrnd hp) rfl hr
    obtain rfl := Host.Outcome.next.inj (hstep.symm.trans ht)
    exact ⟨rfl, hp⟩
  · obtain rfl := Host.Outcome.next.inj ((step_of_rnd_sixteen hp (hrnd hp) h16 hr).symm.trans ht)
    exact ⟨Fin.ext h16, rfl⟩
  · obtain rfl := Host.Outcome.next.inj ((step_of_wait hp hnone hr).symm.trans ht)
    exact ⟨hp, rfl⟩
  · rw [step_accept hp hin] at ht
    refine ⟨fun ⟨hi, hc⟩ => ?_, fun ⟨hi, hk, hc⟩ => ?_, fun hload hcipher => ?_⟩
    · rw [hi, exec_loadkey_of_complete (s := beginStep s) hc] at ht
      obtain rfl := Host.Outcome.next.inj ht
      exact ⟨rfl, rfl⟩
    · obtain ⟨m, he⟩ := exists_exec_startCipher (s := beginStep s) hi hk hc
      obtain rfl := Host.Outcome.next.inj (he.symm.trans ht)
      exact ⟨rfl, rfl⟩
    · obtain ⟨hphase, hrndctr⟩ := sequencer_kept_of_exec ht hload hcipher
      exact ⟨hphase.trans hp, hrndctr⟩

/-! ### A running operation completes -/

/-- An idle core has no micro-step left. -/
theorem microStepsLeft_of_idle {s : State} (hp : s.phase = .idle) : microStepsLeft s = 0 := by
  simp only [microStepsLeft, hp]

theorem microStepsLeft_of_ks {s : State} (hp : s.phase = .ks) : microStepsLeft s = 16 - s.rndctr.val := by
  simp only [microStepsLeft, hp]

theorem microStepsLeft_of_rnd {s : State} (hp : s.phase = .rnd) : microStepsLeft s = 17 - s.rndctr.val := by
  simp only [microStepsLeft, hp]

/-- Under the sequencer's invariant the operation is over exactly when no micro-step is left. -/
theorem microStepsLeft_eq_zero_iff {s : State} (hinv : ControlInv s) : microStepsLeft s = 0 ↔ s.phase = .idle := by
  refine ⟨fun h => ?_, microStepsLeft_of_idle⟩
  have hlt := s.rndctr.isLt
  cases hp : s.phase with
  | idle => rfl
  | ks =>
    obtain ⟨-, hle⟩ := hinv.2 hp
    rw [microStepsLeft_of_ks hp] at h
    omega
  | rnd =>
    rw [microStepsLeft_of_rnd hp] at h
    omega

/-- Whatever step is taken, the host goes on to present what R72 leaves to present. -/
theorem step_inputs {s t : State} (h : step s = .next t) : t.inputs = remainingInputs s := by
  cases hr : rstPin s with
  | true =>
    obtain rfl := Host.Outcome.next.inj ((step_of_rstPin s hr).symm.trans h)
    rfl
  | false =>
    rcases step_cases h hr with ⟨w, rest, -, -, he⟩ | ⟨-, rfl, -⟩ | ⟨i, -, -, -, rfl⟩ | ⟨i, -, -, -, rfl⟩ |
      ⟨-, -, -, rfl⟩
    · obtain ⟨hin, -⟩ := commandFrames _ _ _ he
      exact hin
    · rfl
    · exact keyMicroStep_inputs i _
    · rfl
    · rfl

/-- Nothing is left to present that was not there (spec/30_encoding.md R72). -/
theorem remainingInputs_subset (s : State) : remainingInputs s ⊆ s.inputs := by
  unfold remainingInputs
  split
  · exact List.nil_subset _
  · next hin =>
    rw [hin]
    split
    · exact List.subset_cons_self _ _
    · exact List.Subset.refl _
  · next hin =>
    rw [hin]
    exact List.subset_cons_self _ _
  · next hin =>
    rw [hin]
    exact List.subset_cons_self _ _

/-- A host that never presents a reset does not do so next. -/
theorem NoReset.rstPin_eq {s : State} (h : NoReset s) : rstPin s = false := by
  cases hin : s.inputs with
  | nil => rw [rstPin, hin]; rfl
  | cons e rest =>
    have he : e ≠ .reset := h e (hin ▸ List.mem_cons_self)
    simp [rstPin, hin, he]

/-- A host that never presents a reset goes on so. -/
theorem NoReset.of_step {s t : State} (h : NoReset s) (ht : step s = .next t) : NoReset t := by
  intro e he
  rw [step_inputs ht] at he
  exact h e (remainingInputs_subset s he)

/-- Each step of a running operation is one of the micro-steps it has left. -/
theorem step_microStepsLeft {s : State} (hinv : ControlInv s) (hr : rstPin s = false) (hp : s.phase ≠ .idle) :
    ∃ t, step s = .next t ∧ microStepsLeft t + 1 = microStepsLeft s := by
  obtain ⟨t, ht, -, hmove⟩ := sequencerTransitions s hinv
  obtain ⟨hks, hround, hfinal, -⟩ := hmove hr
  refine ⟨t, ht, ?_⟩
  cases hph : s.phase with
  | idle => exact absurd hph hp
  | ks =>
    obtain ⟨-, hle⟩ := hinv.2 hph
    obtain ⟨hnext, hphase⟩ := hks hph
    rw [microStepsLeft_of_ks hph]
    split at hphase
    · rw [microStepsLeft_of_idle hphase]
      omega
    · rw [microStepsLeft_of_ks hphase]
      omega
  | rnd =>
    rw [microStepsLeft_of_rnd hph]
    by_cases hle : s.rndctr.val ≤ 15
    · obtain ⟨hnext, hphase⟩ := hround hph hle
      rw [microStepsLeft_of_rnd hphase]
      omega
    · have h16 : s.rndctr.val = 16 := by omega
      obtain ⟨-, hphase⟩ := hfinal hph h16
      rw [microStepsLeft_of_idle hphase, h16]

/-- Up to the micro-steps it has left, a running operation goes on, step by step. -/
theorem run_microStepsLeft {n : Nat} {s : State} (hinv : ControlInv s) (hno : NoReset s) (hn : n ≤ microStepsLeft s) :
    ∃ t, Host.Core.run Sys2Proof.core n s = .next t ∧ ControlInv t ∧ microStepsLeft t + n = microStepsLeft s := by
  induction n generalizing s with
  | zero => exact ⟨s, rfl, hinv, rfl⟩
  | succ n ih =>
    have hbusy : s.phase ≠ .idle := mt microStepsLeft_of_idle (by omega)
    obtain ⟨u, hu, hleft⟩ := step_microStepsLeft hinv hno.rstPin_eq hbusy
    obtain ⟨t, ht, hinvt, hleft'⟩ := ih (controlInv_of_step hu) (hno.of_step hu) (by omega)
    exact ⟨t, (run_succ hu).trans ht, hinvt, by omega⟩

/-- Settles O47: a run of all the micro-steps leaves none, and a shorter one leaves some. -/
theorem runningOperationCompletes : Obligations.RunningOperationCompletes := by
  refine fun s hinv hno => ⟨?_, fun n hn => ?_⟩
  · obtain ⟨t, ht, hinvt, hleft⟩ := run_microStepsLeft hinv hno le_rfl
    exact ⟨t, ht, (microStepsLeft_eq_zero_iff hinvt).mp (by omega)⟩
  · obtain ⟨t, ht, -, hleft⟩ := run_microStepsLeft hinv hno hn.le
    exact ⟨t, ht, mt microStepsLeft_of_idle (by omega)⟩

end Sys2Proof.Machine

/-! PROOFS. The statements on the host's pure functions (spec/45_host_padded_cipher.md R200 to R210): buffers of whole
blocks one block at a time, what padding appends and what the strip takes off again, and the two length checks. -/

namespace Sys2Proof.Machine

/-! ### Buffers of whole blocks -/

/-- Eight bytes in front are the first block (spec/45_host_padded_cipher.md R200). -/
theorem blocksOf_block_append (b : Bytes8) (rest : List Byte) : blocksOf (b.toList ++ rest) = b :: blocksOf rest := by
  have hb : b = #v[b[0], b[1], b[2], b[3], b[4], b[5], b[6], b[7]] := Vector.ext fun j hj => by
    interval_cases j <;> rfl
  rw [hb]
  rfl

/-- Induction over a buffer of whole blocks, a block at a time. -/
theorem wholeBlocks_induction {motive : List Byte → Prop} (nil : motive [])
    (block : ∀ (b : Bytes8) (rest : List Byte), motive rest → motive (b.toList ++ rest)) {buf : List Byte}
    (h : buf.length % 8 = 0) : motive buf := by
  obtain ⟨n, hn⟩ := Nat.dvd_of_mod_eq_zero h
  clear h
  induction n generalizing buf with
  | zero => rwa [List.eq_nil_of_length_eq_zero hn]
  | succ n ih =>
    have hfirst : (buf.take 8).toArray.size = 8 := by rw [List.size_toArray, List.length_take]; omega
    rw [← List.take_append_drop 8 buf]
    exact block ⟨(buf.take 8).toArray, hfirst⟩ _ (ih (by rw [List.length_drop]; omega))

/-- The first block is transformed by itself (spec/45_host_padded_cipher.md R205). -/
theorem mapBlocks_block_append (F : Block → Block) (b : Bytes8) (rest : List Byte) :
    mapBlocks F (b.toList ++ rest) = (bytesOfBlock (F (blockOfBytes b))).toList ++ mapBlocks F rest := by
  rw [mapBlocks, blocksOf_block_append, List.flatMap_cons, mapBlocks]

/-- Settles O60, a block at a time. -/
theorem blocksAreIndependent : Obligations.BlocksAreIndependent := by
  intro F A B
  refine wholeBlocks_induction (motive := fun A => mapBlocks F (A ++ B) = mapBlocks F A ++ mapBlocks F B) rfl ?_
  intro b rest ih
  rw [List.append_assoc, mapBlocks_block_append, ih, mapBlocks_block_append, List.append_assoc]

/-- The codec undone both ways on a block (spec/40_bitcodec.md R92, R93). -/
theorem blockOfBytes_bytesOfBlock (X : Block) : blockOfBytes (bytesOfBlock X) = X :=
  bytesToBits_bitsToBytes (m := 8) X

theorem bytesOfBlock_blockOfBytes (b : Bytes8) : bytesOfBlock (blockOfBytes b) = b := bitsToBytes_bytesToBits b

/-- A block transform that undoes another one undoes it on whole buffers. -/
theorem mapBlocks_leftInverse {F G : Block → Block} (h : Function.LeftInverse F G) {buf : List Byte} :
    buf.length % 8 = 0 → mapBlocks F (mapBlocks G buf) = buf := by
  refine wholeBlocks_induction (motive := fun buf => mapBlocks F (mapBlocks G buf) = buf) rfl ?_
  intro b rest ih
  have hblock : bytesOfBlock (F (blockOfBytes (bytesOfBlock (G (blockOfBytes b))))) = b := by
    rw [blockOfBytes_bytesOfBlock, h, bytesOfBlock_blockOfBytes]
  rw [mapBlocks_block_append, mapBlocks_block_append, hblock, ih]

/-- A positive number of whole blocks stays so under a block transform. -/
theorem mapBlocks_ne_nil (F : Block → Block) {buf : List Byte} (h : ¬ (buf.length = 0 ∨ buf.length % 8 ≠ 0)) :
    mapBlocks F buf ≠ [] := by
  rw [← List.length_pos_iff, length_mapBlocks]
  omega

/-! ### Padding -/

/-- With `PAD_FULL_BLOCK` the `n` of R202 is a full block where the message is whole blocks. -/
theorem padLength_of_fullBlock {cfg : HostConfig} (h : cfg.padFullBlock = true) (len : Nat) :
    padLength cfg len = 8 - len % 8 := by
  simp [padLength, h]

theorem length_pad (cfg : HostConfig) (M : List Byte) : (pad cfg M).length = M.length + padLength cfg M.length := by
  rw [pad, List.length_append, List.length_replicate]

/-- Settles O55: `padLength` under the default parameters, and what `PAD_FULL_BLOCK = false` changes in it. -/
theorem paddingAppendsOneToEightBytes : Obligations.PaddingAppendsOneToEightBytes := by
  refine ⟨fun M => ?_, fun stripMax M => ?_⟩
  · have hn : padLength HostConfig.default M.length = 8 - M.length % 8 := padLength_of_fullBlock rfl _
    refine ⟨8 - M.length % 8, rfl, by omega, by omega, by rw [pad, hn], by rw [length_pad, hn]; omega, fun h => ?_⟩
    rw [pad, hn, h]
  · by_cases h : M.length % 8 = 0
    · simp [pad, padLength, h]
    · simp [pad, padLength, h]

/-- Settles O56, from the length of the padded message. -/
theorem ciphertextLength : Obligations.CiphertextLength := by
  intro K M
  rw [hostEncrypt, length_mapBlocks, length_pad, padLength_of_fullBlock rfl]
  omega

/-! ### The strip -/

/-- A tail of 1 to 8 bytes of its own length is stripped, unless `PAD_STRIP_MAX` is smaller
(spec/45_host_padded_cipher.md R208). -/
theorem strip_append_replicate (cfg : HostConfig) (M : List Byte) {n : Nat} (hpos : 0 < n) (hle : n ≤ 8)
    (hB : M ++ List.replicate n (BitVec.ofNat 8 n) ≠ []) :
    strip cfg (M ++ List.replicate n (BitVec.ofNat 8 n)) hB =
      if n ≤ cfg.padStripMax.val then M else M ++ List.replicate n (BitVec.ofNat 8 n) := by
  have hne : List.replicate n (BitVec.ofNat 8 n) ≠ [] := by simp; omega
  have hlast : (M ++ List.replicate n (BitVec.ofNat 8 n)).getLast hB = BitVec.ofNat 8 n := by
    rw [List.getLast_append_of_ne_nil _ hne, List.getLast_replicate]
  have hval : (BitVec.ofNat 8 n).toNat = n := by rw [BitVec.toNat_ofNat]; omega
  have hfront : (M ++ List.replicate n (BitVec.ofNat 8 n)).length - n = M.length := by simp
  have htail : ∀ b ∈ List.replicate n (BitVec.ofNat 8 n), b = BitVec.ofNat 8 n := fun _ => List.eq_of_mem_replicate
  simp only [strip, hlast, hval, hfront, List.drop_left, List.take_left, and_iff_left htail]

/-! ### `decrypt` -/

/-- The length check of `decrypt` (spec/45_host_padded_cipher.md R207). -/
theorem hostDecrypt_of_broken {cfg : HostConfig} {K : SubkeyStore} {Cx : List Byte}
    (h : Cx.length = 0 ∨ Cx.length % 8 ≠ 0) : hostDecrypt cfg K Cx = .error .invalidInputError := dif_pos h

/-- `decrypt` of whole blocks (spec/45_host_padded_cipher.md R206, R208). -/
theorem hostDecrypt_of_whole {cfg : HostConfig} {K : SubkeyStore} {Cx B : List Byte}
    (h : ¬ (Cx.length = 0 ∨ Cx.length % 8 ≠ 0)) (hmap : mapBlocks (decryptBlock K) Cx = B) (hB : B ≠ []) :
    hostDecrypt cfg K Cx = .ok (strip cfg B hB) := by
  subst hmap
  exact dif_neg h

/-- Settles O57: the two branches of each function's length check. -/
theorem decryptRefusesBrokenLengths : Obligations.DecryptRefusesBrokenLengths := by
  refine ⟨fun cfg K Cx => ⟨fun herr => ?_, hostDecrypt_of_broken⟩, fun cfg Cx s h => if_pos h⟩
  by_contra h
  rw [hostDecrypt_of_whole h rfl (mapBlocks_ne_nil _ h)] at herr
  cases herr

/-- With `PAD_FULL_BLOCK`, `decrypt` of `encrypt` is the strip of the padded message (spec/45_host_padded_cipher.md
R209). -/
theorem hostDecrypt_hostEncrypt {cfg : HostConfig} (hfull : cfg.padFullBlock = true) (K : SubkeyStore)
    (M : List Byte) :
    hostDecrypt cfg K (hostEncrypt cfg K M) =
      .ok (if 8 - M.length % 8 ≤ cfg.padStripMax.val then M else pad cfg M) := by
  have hn := padLength_of_fullBlock hfull M.length
  have hlen := length_pad cfg M
  have hinv : Function.LeftInverse (decryptBlock K) (encryptBlock K) := cryptBlock_other K .encrypt
  have hback : mapBlocks (decryptBlock K) (hostEncrypt cfg K M) = pad cfg M := mapBlocks_leftInverse hinv (by omega)
  rw [pad, hn] at hback ⊢
  rw [hostDecrypt_of_whole (by rw [hostEncrypt, length_mapBlocks]; omega) hback (by simp; omega),
    strip_append_replicate cfg M (by omega) (by omega)]

/-- Settles O59: the three cases compare `n` with `PAD_STRIP_MAX`. -/
theorem messageRoundTrip : Obligations.MessageRoundTrip := by
  refine fun K M => ⟨fun h => ?_, fun h => ?_, ?_⟩ <;> rw [hostDecrypt_hostEncrypt rfl]
  · exact congrArg _ (if_pos (show 8 - M.length % 8 ≤ 7 by omega))
  · have hpad : pad HostConfig.default M = M ++ List.replicate 8 0x08#8 := by
      rw [pad, padLength_of_fullBlock rfl, h]
    exact congrArg _ ((if_neg (show ¬ 8 - M.length % 8 ≤ 7 by omega)).trans hpad)
  · exact congrArg _ (if_pos (show 8 - M.length % 8 ≤ 8 by omega))

end Sys2Proof.Machine

/-! PROOFS. The host's transactions at the command level (spec/45_host_padded_cipher.md R204): what a list of PUSHes and
a list of POPs do, then the key and the block transaction that are made of them. -/

namespace Sys2Proof.Machine

/-! ### One word after another -/

theorem runCommands_append (ws vs : List CmdWord) (s : State) :
    runCommands (ws ++ vs) s = runCommands vs (runCommands ws s) := List.foldl_append

theorem runCommands_encode_cons (i : Instr) (ws : List CmdWord) (s : State) :
    runCommands (encode i :: ws) s = runCommands ws (commandAtOnce i s) := by
  rw [runCommands, List.foldl_cons, decode_encode, runCommands]

theorem runCommands_concat_encode (ws : List CmdWord) (i : Instr) (s : State) :
    runCommands (ws ++ [encode i]) s = commandAtOnce i (runCommands ws s) := by
  rw [runCommands_append, runCommands_encode_cons]
  rfl

/-! ### PUSHes -/

/-- The words that push these bytes in order. -/
def pushWords (bytes : List Byte) : List CmdWord := bytes.map fun b => encode (.push b)

/-- The bytes that wait in the input buffer (spec/10_state.md R20, R26). -/
def pushedBytes (s : State) : List Byte := s.ibuf.toList.take s.icnt.val

/-- What pushing `bytes` makes of `s`: `ICNT` counts them up to 9, each is answered `(0, 0x00)`, they stand in the
buffer if they fit, and the key, the output and `PHASE` stay (spec/40_bitcodec.md R95). -/
structure Pushed (bytes : List Byte) (s t : State) : Prop where
  icnt : t.icnt.val = min 9 (s.icnt.val + bytes.length)
  ibuf : s.icnt.val + bytes.length ≤ 8 → pushedBytes t = pushedBytes s ++ bytes
  rspLog : t.rspLog = s.rspLog ++ List.replicate bytes.length ⟨.ok, 0x00#8⟩
  obuf : t.obuf = s.obuf
  ocnt : t.ocnt = s.ocnt
  k : t.k = s.k
  keyValid : t.keyValid = s.keyValid
  phase : t.phase = s.phase

/-- A byte that fits stands behind those pushed before. -/
theorem pushedBytes_pushByte (b : Byte) {s : State} (h : s.icnt.val ≤ 7) :
    pushedBytes (pushByte b s) = pushedBytes s ++ [b] := by
  have hlt : s.icnt.val < s.ibuf.toList.length := by rw [Vector.length_toList]; omega
  rw [pushByte_of_room b h, pushedBytes, pushedBytes, Vector.toList_set,
    List.take_succ_eq_append_getElem (by rwa [List.length_set]), List.take_set_of_le le_rfl, List.getElem_set_self]

/-- A list of PUSHes, a byte at a time. -/
theorem pushed_runCommands (bytes : List Byte) (s : State) : Pushed bytes s (runCommands (pushWords bytes) s) := by
  induction bytes generalizing s with
  | nil =>
    have hlt := s.icnt.isLt
    have hicnt : s.icnt.val = min 9 (s.icnt.val + 0) := by omega
    exact ⟨hicnt, fun _ => (List.append_nil _).symm, (List.append_nil _).symm, rfl, rfl, rfl, rfl, rfl⟩
  | cons b bytes ih =>
    have h := ih (succeed 0#8 (pushByte b s))
    have hicnt := pushByte_icnt_val b s
    have hlt := s.icnt.isLt
    rw [pushWords, List.map_cons, runCommands_encode_cons]
    refine ⟨?_, fun hfit => ?_, ?_, h.obuf.trans (pushByte_obuf b s), h.ocnt.trans (pushByte_ocnt b s),
      h.k.trans (pushByte_k b s), h.keyValid.trans (pushByte_keyValid b s), h.phase.trans (pushByte_phase b s)⟩
    · refine h.icnt.trans ?_
      rw [succeed_icnt, hicnt, List.length_cons]
      split <;> omega
    · rw [List.length_cons] at hfit
      rw [if_pos (by omega)] at hicnt
      refine (h.ibuf (by rw [succeed_icnt, hicnt]; omega)).trans ?_
      rw [List.append_cons, ← pushedBytes_pushByte b (by omega)]
      rfl
    · refine h.rspLog.trans ?_
      rw [succeed_rspLog, pushByte_rspLog, List.append_assoc, List.length_cons, List.replicate_succ]
      rfl

/-- Eight bytes pushed into an empty buffer are the input block (spec/40_bitcodec.md R93). -/
theorem Pushed.inputBlock_eq {b : Bytes8} {s t : State} (h : Pushed b.toList s t) (hs : s.icnt = 0) :
    t.icnt = 8 ∧ inputBlock t = blockOfBytes b := by
  have hlen : b.toList.length = 8 := Vector.length_toList
  have hs0 : s.icnt.val = 0 := by rw [hs]; rfl
  have h8 : t.icnt.val = 8 := by rw [h.icnt, hs0, hlen]; rfl
  have hbytes := h.ibuf (by omega)
  have hfull : t.ibuf.toList.length ≤ 8 := Vector.length_toList.le
  rw [pushedBytes, pushedBytes, h8, hs0, List.take_zero, List.nil_append, List.take_of_length_le hfull] at hbytes
  exact ⟨Fin.ext h8, by rw [inputBlock, Vector.toList_inj.mp hbytes]⟩

/-- Eight bytes pushed, and more or fewer in all, are no block. -/
theorem Pushed.icnt_ne_eight {bytes : List Byte} {s t : State} (h : Pushed bytes s t)
    (hne : s.icnt.val + bytes.length ≠ 8) : t.icnt ≠ 8 := by
  intro h8
  have hicnt := h.icnt
  rw [h8] at hicnt
  change 8 = _ at hicnt
  omega

/-! ### POPs -/

/-- The bytes that POPs will return, in order (spec/10_state.md R23; spec/40_bitcodec.md R97). -/
def unreadBytes (s : State) : List Byte := s.obuf.toList.drop (8 - s.ocnt.val)

/-- What popping all unread bytes makes of `s`: each is answered in order, none is left, and the key, the input and
`PHASE` stay (spec/40_bitcodec.md R97). -/
structure Popped (s t : State) : Prop where
  rspLog : t.rspLog = s.rspLog ++ (unreadBytes s).map fun x => ⟨.ok, x⟩
  ocnt : t.ocnt = 0
  icnt : t.icnt = s.icnt
  k : t.k = s.k
  keyValid : t.keyValid = s.keyValid
  phase : t.phase = s.phase

/-- What was popped does not depend on what the port presents after. -/
theorem Popped.withInputs {s t : State} (h : Popped s t) (ins : List HostEvent) : Popped s { t with inputs := ins } :=
  ⟨h.rspLog, h.ocnt, h.icnt, h.k, h.keyValid, h.phase⟩

/-- The next byte to pop is the first unread one. -/
theorem unreadBytes_eq_cons {s : State} (h : s.ocnt.val ≠ 0) :
    unreadBytes s = nextOutput s h :: unreadBytes (consumeOutput s) := by
  have hlt : 8 - s.ocnt.val < s.obuf.toList.length := by rw [Vector.length_toList]; omega
  have hnext : 8 - s.ocnt.val + 1 = 8 - (s.ocnt.val - 1) := by omega
  rw [unreadBytes, List.drop_eq_getElem_cons hlt, Vector.getElem_toList, hnext]
  rfl

/-- As many POPs as there are unread bytes. -/
theorem popped_runCommands {n : Nat} {s : State} (h : s.ocnt.val = n) :
    Popped s (runCommands (List.replicate n (encode .pop)) s) := by
  induction n generalizing s with
  | zero =>
    have hnone : unreadBytes s = [] := by
      rw [unreadBytes, h, List.drop_eq_nil_of_le (by rw [Vector.length_toList])]
    exact ⟨by rw [hnone]; exact (List.append_nil _).symm, Fin.ext h, rfl, rfl, rfl, rfl⟩
  | succ n ih =>
    have hne : s.ocnt.val ≠ 0 := by omega
    have hpop : commandAtOnce .pop s = succeed (nextOutput s hne) (consumeOutput s) := dif_neg hne
    have hrest := ih (s := succeed (nextOutput s hne) (consumeOutput s)) (by simp [h])
    rw [List.replicate_succ, runCommands_encode_cons, hpop]
    refine ⟨hrest.rspLog.trans ?_, hrest.ocnt, hrest.icnt, hrest.k, hrest.keyValid, hrest.phase⟩
    rw [succeed_rspLog, consumeOutput_rspLog, List.append_assoc, unreadBytes_eq_cons hne]
    rfl

/-! ### The key transaction -/

/-- The core holds a key with this schedule, and no pushed byte. -/
structure Keyed (K : SubkeyStore) (s : State) : Prop where
  keyValid : s.keyValid = true
  k : s.k = K
  icnt : s.icnt = 0

/-- Neither the key nor the buffer depends on what the port presents. -/
theorem Keyed.withInputs {K : SubkeyStore} {s : State} (h : Keyed K s) (ins : List HostEvent) :
    Keyed K { s with inputs := ins } := ⟨h.keyValid, h.k, h.icnt⟩

/-- POPs leave the key and the input buffer as they are. -/
theorem Popped.keyed {K : SubkeyStore} {s t : State} (h : Popped s t) (hs : Keyed K s) : Keyed K t :=
  ⟨h.keyValid.trans hs.keyValid, h.k.trans hs.k, h.icnt.trans hs.icnt⟩

theorem commandAtOnce_loadkey_of_complete {s : State} (h : s.icnt = 8) : commandAtOnce .loadkey s = loadKeyAtOnce s :=
  if_pos ((inputComplete_iff s).mpr h)

theorem commandAtOnce_loadkey_of_incomplete {s : State} (h : s.icnt ≠ 8) :
    commandAtOnce .loadkey s = takeFault .invalidKeyError s := if_neg (mt (inputComplete_iff s).mp h)

/-- Eight key bytes and LOADKEY load their schedule, with nine responses (spec/42_keyschedule.md R133, R135). -/
theorem keyed_runCommands_key (b : Bytes8) {s : State} (hs : s.icnt = 0) :
    Keyed (keySchedule (blockOfBytes b)) (runCommands (wordsOf (.key b.toList)) s) ∧
      (runCommands (wordsOf (.key b.toList)) s).rspLog = s.rspLog ++ List.replicate 9 ⟨.ok, 0x00#8⟩ := by
  have hpush := pushed_runCommands b.toList s
  obtain ⟨h8, hblock⟩ := hpush.inputBlock_eq hs
  have hrun : runCommands (wordsOf (.key b.toList)) s = loadKeyAtOnce (runCommands (pushWords b.toList) s) :=
    (runCommands_concat_encode _ _ _).trans (commandAtOnce_loadkey_of_complete h8)
  rw [hrun]
  refine ⟨⟨rfl, congrArg keySchedule hblock, rfl⟩, ?_⟩
  rw [loadKeyAtOnce, succeed_rspLog, hpush.rspLog, Vector.length_toList, List.append_assoc,
    ← List.replicate_succ' (n := 8)]

/-! ### The block transaction -/

/-- The bytes that one block becomes (spec/44_blockcipher.md R171, R177). -/
def cryptBytes (m : Mode) (K : SubkeyStore) (b : Bytes8) : List Byte :=
  (bytesOfBlock (cryptBlock (blockOfBytes b) K m)).toList

theorem blockWords_eq (m : Mode) (b : Bytes8) : blockWords m b = pushWords b.toList ++ [encode m.command] := by
  cases m <;> rfl

/-- ENC and DEC are one rule but for the mode and the length fault (spec/44_blockcipher.md R175, R178). -/
theorem commandAtOnce_modeCommand (m : Mode) (s : State) :
    commandAtOnce m.command s =
      if !s.keyValid then takeFault .noKeyFault s
      else if inputComplete s then cipherAtOnce m s
      else takeFault m.lengthFault s := by
  cases m <;> rfl

/-- A key and eight bytes are what ENC and DEC ask for (spec/44_blockcipher.md R174, R175). -/
theorem commandAtOnce_modeCommand_of_ready (m : Mode) {s : State} (hk : s.keyValid = true) (h : s.icnt = 8) :
    commandAtOnce m.command s = cipherAtOnce m s := by
  rw [commandAtOnce_modeCommand, hk]
  exact if_pos ((inputComplete_iff s).mpr h)

/-- The fault of an ENC or a DEC that does not start: the missing key comes before the length (spec/60_exceptions.md
R228). -/
def blockFault (m : Mode) (s : State) : CmdFault := if s.keyValid = false then .noKeyFault else m.lengthFault

theorem commandAtOnce_modeCommand_of_not_ready (m : Mode) {s : State} (h : s.keyValid = false ∨ s.icnt ≠ 8) :
    commandAtOnce m.command s = takeFault (blockFault m s) s := by
  rw [commandAtOnce_modeCommand, blockFault]
  cases hk : s.keyValid with
  | false => rfl
  | true =>
    have hlen : s.icnt ≠ 8 := h.resolve_left (by rw [hk]; decide)
    exact if_neg (mt (inputComplete_iff s).mp hlen)

/-- Eight bytes and ENC or DEC leave the block's bytes unread and the key as it was, with nine responses
(spec/44_blockcipher.md R178). -/
theorem keyed_runCommands_blockWords (m : Mode) (b : Bytes8) {K : SubkeyStore} {s : State} (hs : Keyed K s) :
    Keyed K (runCommands (blockWords m b) s) ∧
      (runCommands (blockWords m b) s).ocnt = 8 ∧
      unreadBytes (runCommands (blockWords m b) s) = cryptBytes m K b ∧
      (runCommands (blockWords m b) s).rspLog = s.rspLog ++ List.replicate 9 ⟨.ok, 0x00#8⟩ := by
  have hpush := pushed_runCommands b.toList s
  obtain ⟨h8, hblock⟩ := hpush.inputBlock_eq hs.icnt
  have hkey := hpush.keyValid.trans hs.keyValid
  have hK := hpush.k.trans hs.k
  have hrun : runCommands (blockWords m b) s = cipherAtOnce m (runCommands (pushWords b.toList) s) := by
    rw [blockWords_eq, runCommands_concat_encode, commandAtOnce_modeCommand_of_ready m hkey h8]
  rw [hrun]
  refine ⟨⟨hkey, hK, rfl⟩, rfl, ?_, ?_⟩
  · rw [cryptBytes, ← hblock, ← hK]
    rfl
  · rw [cipherAtOnce, succeed_rspLog, hpush.rspLog, Vector.length_toList, List.append_assoc,
      ← List.replicate_succ' (n := 8)]

/-- A block transaction returns the block's bytes behind nine responses, and leaves the key as it was and nothing to
read (spec/45_host_padded_cipher.md R204). -/
theorem keyed_runCommands_blockTransaction (m : Mode) (b : Bytes8) {K : SubkeyStore} {s : State} (hs : Keyed K s) :
    Keyed K (runCommands (blockTransaction m b) s) ∧
      (runCommands (blockTransaction m b) s).rspLog =
        s.rspLog ++ List.replicate 9 ⟨.ok, 0x00#8⟩ ++ (cryptBytes m K b).map fun x => ⟨.ok, x⟩ := by
  obtain ⟨hkeyed, hocnt, hunread, hlog⟩ := keyed_runCommands_blockWords m b hs
  have hpop := popped_runCommands (n := 8) (congrArg Fin.val hocnt)
  rw [blockTransaction, runCommands_append]
  exact ⟨hpop.keyed hkeyed, hpop.rspLog.trans (by rw [hlog, hunread])⟩

/-- Block transactions one after another (spec/45_host_padded_cipher.md R205, R206). -/
theorem rspLog_runCommands_blocks (m : Mode) (blocks : List Bytes8) {K : SubkeyStore} {s : State} (hs : Keyed K s) :
    (runCommands (blocks.flatMap (blockTransaction m)) s).rspLog =
      s.rspLog ++ blocks.flatMap fun b =>
        List.replicate 9 ⟨.ok, 0x00#8⟩ ++ (cryptBytes m K b).map fun x => ⟨.ok, x⟩ := by
  induction blocks generalizing s with
  | nil => exact (List.append_nil _).symm
  | cons b blocks ih =>
    obtain ⟨hkeyed, hlog⟩ := keyed_runCommands_blockTransaction m b hs
    rw [List.flatMap_cons, runCommands_append, ih hkeyed, hlog, List.flatMap_cons]
    simp only [List.append_assoc]

end Sys2Proof.Machine

/-! PROOFS. The host's driver (spec/45_host_padded_cipher.md R204; assumption entry 21): one issued word is one command
of the command level, so the driver's calls give what the transactions give. -/

namespace Sys2Proof.Machine

/-! ### One word -/

/-- No command takes more steps than an ENC or a DEC (spec/70_reset_and_hazards.md R262). -/
theorem commandSteps_range (i : Instr) (s : State) : 0 < commandSteps i s ∧ commandSteps i s ≤ Config.ustepsCrypt := by
  rcases command_cases i s with ⟨hn, -⟩ | ⟨hn, -⟩ | ⟨m, -, hn, -⟩ <;> rw [hn] <;> decide

/-- Behind a first step without a response, what completes goes on to complete. -/
theorem CompletesIn.of_step {N : Nat} {s u t : State} (h : CompletesIn (N + 1) s t) (hs : step s = .next u)
    (hlog : u.rspLog = s.rspLog) : CompletesIn N u t := by
  obtain ⟨hrun, hquiet⟩ := h
  refine ⟨(run_succ hs).symm.trans hrun, fun n hpos hlt => ?_⟩
  obtain ⟨v, hv, hvlog, hvrsp⟩ := hquiet (n + 1) (by omega) (by omega)
  exact ⟨v, (run_succ hs).symm.trans hv, hvlog.trans hlog.symm, hvrsp⟩

/-- A run of at least one step begins with one. -/
theorem exists_step_of_run {N : Nat} {s t : State} (h : Host.Core.run Sys2Proof.core (N + 1) s = .next t) :
    ∃ u, step s = .next u := by
  cases hs : step s with
  | next u => exact ⟨u, rfl⟩
  | fault e => simp [Host.Core.run, show Sys2Proof.core.step s = .fault e from hs] at h
  | refused e => simp [Host.Core.run, show Sys2Proof.core.step s = .refused e from hs] at h

/-- The host that is patient enough sees the response of a command that completes. -/
theorem awaitResponse_of_completesIn {N patience : Nat} {s t : State} {r : Response} (h : CompletesIn N s t)
    (hpos : 0 < N) (hle : N ≤ patience) (hr : t.rsp = some r) : awaitResponse patience s = some (t, r) := by
  induction N generalizing s patience with
  | zero => omega
  | succ N ih =>
    have ⟨hrun, hquiet⟩ := h
    obtain ⟨patience, rfl⟩ := Nat.exists_eq_add_one.mpr (Nat.lt_of_lt_of_le hpos hle)
    obtain ⟨u, hs⟩ := exists_step_of_run hrun
    rcases Nat.eq_zero_or_pos N with rfl | hN
    · obtain rfl := Host.Outcome.next.inj ((run_succ hs).symm.trans hrun)
      exact awaitResponse_of_rsp hs hr
    · obtain ⟨v, hv, hlog, hrsp⟩ := hquiet 1 (by omega) (by omega)
      obtain rfl := Host.Outcome.next.inj ((run_succ hs).symm.trans hv)
      rw [awaitResponse_of_none hs hrsp]
      exact ih (h.of_step hs hlog) hN (by omega)

/-- An idle core answers an issued word with its one-step meaning (spec/92_eei_decisions.md D24). -/
theorem issue_of_idle {w : CmdWord} {s : State} {r : Response} (hp : s.phase = .idle)
    (hr : (commandAtOnce (decode w) s).rsp = some r) :
    issue w s = some ({ commandAtOnce (decode w) s with inputs := [] }, r) := by
  have hbegin : beginStep { s with inputs := [.command w] } = { s with inputs := [], rsp := none } :=
    beginStep_accept hp rfl
  have hdone := completesIn_command (s := { s with inputs := [.command w] }) (w := w) hp ⟨rfl, List.forall_mem_nil _⟩
  rw [hbegin, commandAtOnce_withPort (decode w) s] at hdone
  obtain ⟨hpos, hle⟩ := commandSteps_range (decode w) { s with inputs := [.command w] }
  exact awaitResponse_of_completesIn hdone hpos hle hr

/-! ### A list of words -/

/-- Every command responds once (spec/30_encoding.md R73). -/
theorem exists_respondsWith (i : Instr) {s : State} (hp : s.phase = .idle) :
    ∃ r, RespondsWith r s (commandAtOnce i s) := by
  rcases eq_or_ne i .pop with rfl | hi
  · rcases eq_or_ne s.ocnt.val 0 with ho | ho
    · exact ⟨_, respondsWith_pop_empty hp ho⟩
    · exact ⟨_, respondsWith_pop hp ho⟩
  · obtain ⟨code, h⟩ := respondsWith_commandAtOnce hi hp
    exact ⟨_, h⟩

/-- Responses are only added. -/
theorem exists_rspLog_runCommands (ws : List CmdWord) {s : State} (hp : s.phase = .idle) :
    ∃ rs, (runCommands ws s).rspLog = s.rspLog ++ rs := by
  induction ws generalizing s with
  | nil => exact ⟨[], (List.append_nil _).symm⟩
  | cons w ws ih =>
    obtain ⟨r, hidle, hlog, -⟩ := exists_respondsWith (decode w) hp
    obtain ⟨rs, hrs⟩ := ih hidle
    exact ⟨r :: rs, hrs.trans (by rw [hlog, List.append_assoc, List.singleton_append])⟩

/-- Words that the command level answers without a fault are all issued, and the driver ends where the command level
does, with their data bytes; what the port still presents is of no account. -/
theorem drive_of_rspLog {ws : List CmdWord} {s : State} {bytes : List Byte} (hp : s.phase = .idle)
    (h : (runCommands ws s).rspLog = s.rspLog ++ bytes.map fun x => ⟨.ok, x⟩) :
    ∃ ins, drive ws s = ({ runCommands ws s with inputs := ins }, .ok bytes) := by
  induction ws generalizing s bytes with
  | nil =>
    have hnil : bytes = [] := List.map_eq_nil_iff.mp (List.append_right_eq_self.mp h.symm)
    exact ⟨s.inputs, by rw [hnil]; rfl⟩
  | cons w ws ih =>
    obtain ⟨r, hidle, hlog, hrsp⟩ := exists_respondsWith (decode w) hp
    obtain ⟨rs, hrs⟩ := exists_rspLog_runCommands ws hidle
    have hall : bytes.map (fun x => (⟨.ok, x⟩ : Response)) = r :: rs := by
      refine List.append_cancel_left (h.symm.trans (hrs.trans ?_))
      rw [hlog, List.append_assoc, List.singleton_append]
    obtain ⟨b, bs, rfl, rfl, rfl⟩ := List.map_eq_cons_iff.mp hall
    have hissue := issue_of_idle hp hrsp
    obtain ⟨ins, hdrive⟩ := ih (s := { commandAtOnce (decode w) s with inputs := [] }) hidle
      (by rw [runCommands_withInputs]; exact hrs)
    rw [runCommands_withInputs] at hdrive
    exact ⟨ins, drive_cons_ok hissue hdrive⟩

/-- The same where every data byte is 00. -/
theorem drive_of_zeros {ws : List CmdWord} {s : State} {n : Nat} (hp : s.phase = .idle)
    (h : (runCommands ws s).rspLog = s.rspLog ++ List.replicate n ⟨.ok, 0x00#8⟩) :
    ∃ ins, drive ws s = ({ runCommands ws s with inputs := ins }, .ok (List.replicate n 0x00#8)) :=
  drive_of_rspLog hp (by rw [h, List.map_replicate])

/-- A list of commands leaves an idle core idle. -/
theorem runCommands_phase (ws : List CmdWord) {s : State} (hp : s.phase = .idle) :
    (runCommands ws s).phase = .idle := by
  induction ws generalizing s with
  | nil => exact hp
  | cons w ws ih => exact ih (commandAtOnce_phase (decode w) hp)

/-- A fault of the last word is the outcome of the whole. -/
theorem drive_concat_fault {ws : List CmdWord} {i : Instr} {s : State} {n : Nat} {f : CmdFault}
    (hp : s.phase = .idle)
    (h : (runCommands ws s).rspLog = s.rspLog ++ List.replicate n ⟨.ok, 0x00#8⟩)
    (hfault : commandAtOnce i (runCommands ws s) = takeFault f (runCommands ws s)) :
    drive (ws ++ [encode i]) s =
      ({ takeFault f (runCommands ws s) with inputs := [] }, .error (hostErrorOf f)) := by
  obtain ⟨ins, hdrive⟩ := drive_of_zeros hp h
  have hport : commandAtOnce (decode (encode i)) { runCommands ws s with inputs := ins } =
      { takeFault f (runCommands ws s) with inputs := ins } := by
    rw [decode_encode, commandAtOnce_withPort i (runCommands ws s) ins (runCommands ws s).rsp, hfault]
  have hissue := issue_of_idle (w := encode i) (s := { runCommands ws s with inputs := ins })
    (r := ⟨.fault f, 0x00#8⟩) (runCommands_phase ws hp)
    ((congrArg State.rsp hport).trans (takeFault_rsp f (runCommands ws s)))
  rw [hport] at hissue
  rw [drive_append_ok hdrive, drive_cons_fault hissue]

/-! ### The key -/

/-- The driver's key call is the key transaction's words. -/
theorem driveKey_of_ok {key : List Byte} {s t : State} {bytes : List Byte}
    (h : drive (wordsOf (.key key)) s = (t, .ok bytes)) : driveKey key s = (t, .ok ()) := by
  rw [wordsOf] at h
  simp only [driveKey, h]

theorem driveKey_of_error {key : List Byte} {s t : State} {e : HostError}
    (h : drive (wordsOf (.key key)) s = (t, .error e)) : driveKey key s = (t, .error e) := by
  rw [wordsOf] at h
  simp only [driveKey, h]

/-- Eight key bytes load their schedule into the core (spec/45_host_padded_cipher.md R210). -/
theorem exists_driveKey_of_eight (b : Bytes8) {s : State} (hp : s.phase = .idle) (hs : s.icnt = 0) :
    ∃ t, driveKey b.toList s = (t, .ok ()) ∧ t.phase = .idle ∧ Keyed (keySchedule (blockOfBytes b)) t := by
  obtain ⟨hkeyed, hlog⟩ := keyed_runCommands_key b hs
  obtain ⟨ins, hdrive⟩ := drive_of_zeros hp hlog
  exact ⟨_, driveKey_of_ok hdrive, runCommands_phase _ hp, hkeyed.withInputs ins⟩

/-- Any other number of key bytes is LOADKEY's fault (spec/45_host_padded_cipher.md R210; spec/42_keyschedule.md
R133). -/
theorem exists_driveKey_of_not_eight {key : List Byte} {s : State} (hp : s.phase = .idle) (hs : s.icnt = 0)
    (hlen : key.length ≠ 8) :
    ∃ t, driveKey key s = (t, .error .invalidKeyError) ∧ t.phase = .idle ∧ t.keyValid = false ∧ t.icnt = 0 := by
  have hpush := pushed_runCommands key s
  have hne : (runCommands (pushWords key) s).icnt ≠ 8 := hpush.icnt_ne_eight (by rw [hs]; simpa using hlen)
  have hdrive := drive_concat_fault hp hpush.rspLog (commandAtOnce_loadkey_of_incomplete hne)
  exact ⟨_, driveKey_of_error hdrive, runCommands_phase _ hp, rfl, rfl⟩

/-- Settles O58: the two branches of `construct`, and the two outcomes of the driver's key call. -/
theorem constructTakesExactlyEightBytes : Obligations.ConstructTakesExactlyEightBytes := by
  refine ⟨fun b => dif_pos Vector.length_toList, fun key hlen => dif_neg hlen, fun s b hp hs => ?_,
    fun s key => exists_driveKey_of_not_eight⟩
  obtain ⟨t, hdrive, hidle, hkeyed⟩ := exists_driveKey_of_eight b hp hs
  exact ⟨t, hdrive, hidle, hkeyed.keyValid, hkeyed.icnt, hkeyed.k⟩

/-! ### One block -/

/-- Eight POPs on a full output buffer get its bytes (spec/40_bitcodec.md R97). -/
theorem exists_drive_pop8 {s : State} (hp : s.phase = .idle) (hs : s.ocnt = 8) :
    ∃ t, drive (wordsOf .pop8) s = (t, .ok (unreadBytes s)) ∧ Popped s t := by
  have hpop := popped_runCommands (n := 8) (s := s) (congrArg Fin.val hs)
  obtain ⟨ins, hdrive⟩ := drive_of_rspLog hp hpop.rspLog
  exact ⟨_, hdrive, hpop.withInputs ins⟩

/-- A block call on a core with a key gets the block's bytes (spec/45_host_padded_cipher.md R204). -/
theorem exists_driveBlock_of_keyed (m : Mode) (b : Bytes8) {K : SubkeyStore} {s : State} (hp : s.phase = .idle)
    (hs : Keyed K s) :
    ∃ t, driveBlock m b s = (t, .ok (cryptBytes m K b)) ∧ t.phase = .idle ∧ Keyed K t ∧ t.ocnt = 0 := by
  obtain ⟨hkeyed, hocnt, hunread, hlog⟩ := keyed_runCommands_blockWords m b hs
  obtain ⟨ins, hwords⟩ := drive_of_zeros hp hlog
  have hidle := runCommands_phase (blockWords m b) hp
  obtain ⟨t, hpops, hpop⟩ := exists_drive_pop8 (s := { runCommands (blockWords m b) s with inputs := ins }) hidle hocnt
  refine ⟨t, (driveBlock_of_ok hwords).trans ?_, hpop.phase.trans hidle, hpop.keyed (hkeyed.withInputs ins), hpop.ocnt⟩
  rw [hpops, ← hunread]
  rfl

/-- A block call on a core without a key, or with bytes already pushed, ends with the fault of ENC or DEC behind the
eight PUSHes (spec/60_exceptions.md R223, R224, R226). -/
theorem driveBlock_of_not_ready (m : Mode) (b : Bytes8) {s : State} (hp : s.phase = .idle)
    (h : s.keyValid = false ∨ s.icnt ≠ 0) :
    driveBlock m b s =
      ({ takeFault (blockFault m s) (runCommands (pushWords b.toList) s) with inputs := [] },
        .error (hostErrorOf (blockFault m s))) := by
  have hpush := pushed_runCommands b.toList s
  have hready : (runCommands (pushWords b.toList) s).keyValid = false ∨
      (runCommands (pushWords b.toList) s).icnt ≠ 8 := by
    refine h.imp hpush.keyValid.trans fun hne => hpush.icnt_ne_eight ?_
    have hpos : s.icnt.val ≠ 0 := fun h0 => hne (Fin.ext h0)
    rw [Vector.length_toList]
    omega
  have hfault := commandAtOnce_modeCommand_of_not_ready m hready
  rw [blockFault, hpush.keyValid, ← blockFault] at hfault
  refine driveBlock_of_error ?_
  rw [blockWords_eq]
  exact drive_concat_fault hp hpush.rspLog hfault

/-- The host's error for the fault of a block call (spec/60_exceptions.md R223, R224, R226). -/
theorem hostErrorOf_blockFault (m : Mode) (s : State) :
    hostErrorOf (blockFault m s) =
      if s.keyValid = false then .coreFault .noKeyFault
      else if m = .encrypt then .coreFault .blockLengthFault else .invalidInputError := by
  rw [blockFault, apply_ite hostErrorOf]
  cases m <;> rfl

/-- Settles O53: the command level's transaction, and the driver's block call with and without its conditions. -/
theorem blockTransactionReturnsTheBlock : Obligations.BlockTransactionReturnsTheBlock := by
  refine ⟨fun s m b hicnt hk => ?_, fun s m b hp hicnt hk => ?_, fun s m b hp h => ?_⟩
  · obtain ⟨-, hlog⟩ := keyed_runCommands_blockTransaction m b ⟨hk, rfl, hicnt⟩
    exact hlog
  · obtain ⟨t, hdrive, hidle, hkeyed, hocnt⟩ := exists_driveBlock_of_keyed m b hp ⟨hk, rfl, hicnt⟩
    exact ⟨t, hdrive, hidle, hkeyed.keyValid, hkeyed.k, hkeyed.icnt, hocnt⟩
  · have hpush := pushed_runCommands b.toList s
    rw [driveBlock_of_not_ready m b hp h, hostErrorOf_blockFault]
    refine ⟨_, List.replicate 8 ⟨.ok, 0x00#8⟩ ++ [⟨.fault (blockFault m s), 0x00#8⟩], rfl, ?_, rfl,
      (takeFault_obuf _ _).trans hpush.obuf, (takeFault_ocnt _ _).trans hpush.ocnt,
      (takeFault_phase _ _).trans (hpush.phase.trans hp)⟩
    exact (takeFault_rspLog _ _).trans (by rw [hpush.rspLog, Vector.length_toList, List.append_assoc])

/-! ### A message -/

/-- Block calls one after another on a core with a key (spec/45_host_padded_cipher.md R205, R206). -/
theorem exists_driveBlocks_of_keyed (m : Mode) (blocks : List Bytes8) {K : SubkeyStore} {s : State}
    (hp : s.phase = .idle) (hs : Keyed K s) :
    ∃ t, driveBlocks m blocks s = (t, .ok (blocks.flatMap (cryptBytes m K))) := by
  induction blocks generalizing s with
  | nil => exact ⟨s, rfl⟩
  | cons b blocks ih =>
    obtain ⟨t, hblock, hidle, hkeyed, -⟩ := exists_driveBlock_of_keyed m b hp hs
    obtain ⟨u, hblocks⟩ := ih hidle hkeyed
    exact ⟨u, driveBlocks_cons_ok hblock hblocks⟩

/-- The encrypt call through a core with a key is `encrypt` under its schedule (spec/45_host_padded_cipher.md R200). -/
theorem driveEncrypt_of_keyed (cfg : HostConfig) (M : List Byte) {K : SubkeyStore} {s : State} (hp : s.phase = .idle)
    (hs : Keyed K s) : (driveEncrypt cfg M s).2 = .ok (hostEncrypt cfg K M) := by
  obtain ⟨t, ht⟩ := exists_driveBlocks_of_keyed .encrypt (blocksOf (pad cfg M)) hp hs
  exact congrArg Prod.snd ht

/-- The decrypt call through a core with a key is `decrypt` under its schedule (spec/45_host_padded_cipher.md R206 to
R208). -/
theorem driveDecrypt_of_keyed (cfg : HostConfig) (Cx : List Byte) {K : SubkeyStore} {s : State} (hp : s.phase = .idle)
    (hs : Keyed K s) : (driveDecrypt cfg Cx s).2 = hostDecrypt cfg K Cx := by
  by_cases h : Cx.length = 0 ∨ Cx.length % 8 ≠ 0
  · rw [driveDecrypt, if_pos h, hostDecrypt_of_broken h]
  · obtain ⟨t, ht⟩ := exists_driveBlocks_of_keyed .decrypt (blocksOf Cx) hp hs
    have hne : (blocksOf Cx).flatMap (cryptBytes .decrypt K) ≠ [] := mapBlocks_ne_nil (decryptBlock K) h
    simp only [driveDecrypt, if_neg h, ht, dif_neg hne]
    exact (hostDecrypt_of_whole h rfl hne).symm

/-- A call behind a loaded key runs on a core that holds that key (spec/45_host_padded_cipher.md R204). -/
theorem exists_driveWithKey (key : Bytes8) (call : State → State × Except HostError (List Byte)) {s : State}
    (hp : s.phase = .idle) (hs : s.icnt = 0) :
    ∃ t, driveWithKey key.toList call s = call t ∧ t.phase = .idle ∧ Keyed (keySchedule (blockOfBytes key)) t := by
  obtain ⟨t, hdrive, hidle, hkeyed⟩ := exists_driveKey_of_eight key hp hs
  exact ⟨t, by simp only [driveWithKey, hdrive], hidle, hkeyed⟩

/-- Settles O54: the key transaction and then the blocks, at the command level and through the driver. -/
theorem messageTransactionReturnsEveryBlock : Obligations.MessageTransactionReturnsEveryBlock := by
  refine ⟨fun s m key blocks hs => ?_, fun s cfg key M hp hs => ?_, fun s cfg key Cx hp hs => ?_⟩
  · obtain ⟨hkeyed, hlog⟩ := keyed_runCommands_key key hs
    rw [messageTransaction, runCommands_append, rspLog_runCommands_blocks m blocks hkeyed, hlog]
    rfl
  · obtain ⟨t, hcall, hidle, hkeyed⟩ := exists_driveWithKey key (driveEncrypt cfg M) hp hs
    rw [hcall, driveEncrypt_of_keyed cfg M hidle hkeyed]
  · obtain ⟨t, hcall, hidle, hkeyed⟩ := exists_driveWithKey key (driveDecrypt cfg Cx) hp hs
    rw [hcall, driveDecrypt_of_keyed cfg Cx hidle hkeyed]

end Sys2Proof.Machine

/-! PROOFS. The exceptions (spec/60_exceptions.md): a fault response means that the whole accepting step was the taking
of that fault, so what a fault does is what the laws of `takeFault` say, whichever command raises it. -/

namespace Sys2Proof.Machine

/-- The code tells the fault (spec/60_exceptions.md R220). -/
theorem CmdFault.code_inj {f g : CmdFault} : f.code = g.code ↔ f = g := by
  cases f <;> cases g <;> decide

/-- A command that responds a fault has taken it and done nothing else: of the other branches some respond code 0 and
the rest, which start an operation, leave the port without a response (spec/60_exceptions.md R221). -/
theorem eq_takeFault_of_exec {i : Instr} {s t : State} {f : CmdFault} {x : Byte} (hrsp : s.rsp = none)
    (h : exec i s = .next t) (hf : t.rsp = some ⟨.fault f, x⟩) : x = 0x00#8 ∧ t = takeFault f s := by
  rcases exec_next_cases h with ⟨-, rfl⟩ | ⟨b, -, rfl⟩ | ⟨-, -, rfl⟩ | ⟨m, -, -, -, rfl⟩ | ⟨ho, -, rfl⟩ | ⟨g, -, rfl⟩
  · simp at hf
  · simp at hf
  · simp [hrsp] at hf
  · simp [hrsp] at hf
  · simp at hf
  · rw [takeFault_rsp] at hf
    cases hf
    exact ⟨rfl, rfl⟩

/-- Settles O20: the state after a fault response is `takeFault`'s, and that operation's laws name the faults that the
statement names by their codes. -/
theorem everyFaultIsPrecise : Obligations.EveryFaultIsPrecise := by
  intro i s t f x hrsp h hf
  obtain ⟨rfl, rfl⟩ := eq_takeFault_of_exec hrsp h hf
  have hkeyCode : f.code = 1#3 ↔ f = .invalidKeyError := CmdFault.code_inj (g := .invalidKeyError)
  have hillegalCode : f.code = 5#3 ↔ f = .illegalCommand := CmdFault.code_inj (g := .illegalCommand)
  have hemptyCode : f.code = 6#3 ↔ f = .outputEmptyFault := CmdFault.code_inj (g := .outputEmptyFault)
  simp only [RspCode.code, ne_eq, hkeyCode, hillegalCode, hemptyCode, true_and]
  exact ⟨takeFault_err f s, takeFault_rspLog f s, takeFault_phase f s, takeFault_icnt f s, takeFault_keyValid f s,
    takeFault_k f s, takeFault_ibuf f s, takeFault_obuf f s, takeFault_ocnt f s, takeFault_c f s, takeFault_d f s,
    takeFault_l f s, takeFault_r f s, takeFault_mode f s, takeFault_rndctr f s, takeFault_inputs f s⟩

/-- A reserved command raises IllegalCommand from every state (spec/30_encoding.md R75). -/
theorem exec_reserved {i : Instr} (hi : i = .reserved110 ∨ i = .reserved111) (s : State) :
    exec i s = .next (takeFault .illegalCommand s) := by
  rcases hi with rfl | rfl <;> rfl

/-- Settles O19: the op field alone selects the two commands, and their fault has no state change of its own. -/
theorem reservedWordsRaiseIllegalCommand : Obligations.ReservedWordsRaiseIllegalCommand :=
  ⟨fun _ h => h.imp (fun h6 => decode_of_opField h6 (by decide)) fun h7 => decode_of_opField h7 (by decide),
    fun s _ hi => exec_reserved hi s, rfl⟩

end Sys2Proof.Machine

/-! PROOFS. Reset and the hazards of the command stream (spec/70_reset_and_hazards.md): a core that nothing is presented
to, the reset edge, and the key transaction that a host begins with. -/

namespace Sys2Proof.Machine

/-! ### Waiting for the host -/

/-- Where nothing is presented, a step's start is the end of the response pulse (spec/30_encoding.md R70). -/
theorem beginStep_of_nothing {s : State} (h : s.inputs = []) : beginStep s = { s with rsp := none } := by
  have hrest : remainingInputs s = s.inputs := by rw [remainingInputs, h]
  rw [beginStep, hrest]

/-- An idle core executes nothing by itself (spec/70_reset_and_hazards.md R252; assumption entry 6). -/
theorem step_of_nothing {s : State} (hp : s.phase = .idle) (h : s.inputs = []) :
    step s = .next { s with rsp := none } := by
  have hnone : ∀ w rest, s.inputs ≠ .command w :: rest := by simp [h]
  have hr : rstPin s = false := by simp [rstPin, h]
  rw [step_of_wait hp hnone hr, beginStep_of_nothing h]

/-- Settles O9: the state after reset is one of the idle states with nothing presented, and has no response to end. -/
theorem resetCoreWaitsForTheHost : Obligations.ResetCoreWaitsForTheHost :=
  ⟨rfl, step_of_nothing (s := State.reset) rfl rfl, fun _ => step_of_nothing⟩

/-! ### The reset edge -/

/-- The edge takes the reset and nothing behind it: no command is accepted there (spec/70_reset_and_hazards.md R250). -/
theorem remainingInputs_reset {s : State} {rest : List HostEvent} (h : s.inputs = .reset :: rest) :
    remainingInputs s = rest := by rw [remainingInputs, h]

/-- `STATUS` after a reset edge is that of the state after reset (spec/70_reset_and_hazards.md R250). -/
@[simp] theorem status_resetEdge (s : State) : status (resetEdge s) = 0#16 :=
  calc status (resetEdge s) = status State.reset := status_congr Iff.rfl rfl rfl rfl rfl
    _ = 0#16 := rfl

/-- Settles O10: the reset pin alone chooses the step, and the laws of `resetEdge` give the registers. -/
theorem resetEdgeFromEveryState : Obligations.ResetEdgeFromEveryState := by
  intro s rest hin
  have hr : rstPin s = true := by rw [rstPin, hin]; rfl
  exact ⟨_, step_of_rstPin s hr, resetEdge_phase _, resetEdge_rndctr _, resetEdge_keyValid _, resetEdge_mode _,
    resetEdge_err _, resetEdge_icnt _, resetEdge_ocnt _, status_resetEdge _, resetEdge_rsp _, resetEdge_rspLog _,
    remainingInputs_reset hin⟩

/-! ### The key transaction -/

/-- Settles O52: what eight PUSHes and LOADKEY leave behind is a core that holds the key. -/
theorem keyTransactionLoadsTheSchedule : Obligations.KeyTransactionLoadsTheSchedule := by
  intro s b hs
  obtain ⟨hkeyed, hlog⟩ := keyed_runCommands_key b hs
  exact ⟨hkeyed.keyValid, hkeyed.k, hlog⟩

end Sys2Proof.Machine
